-- ==== Sys2Proof/Word.lean ====
section
/-!
DEFINITION. The plain types of the HuffmanDecoder CORE: symbols, register words, bit strings, the CodeTable.
-/
namespace Sys2Proof

/-- An input byte, and a symbol value 0 to 255 (00 R5, R10). -/
abbrev Byte := BitVec 8

/-- A host register as the host writes or reads it: CFG (10 R41) and the STATUS view (10 R33). -/
abbrev Word := BitVec 32

/-- A bit string, first bit at the head (00 R8): `[true, false]` is "10". -/
abbrev Bits := List Bool

/-- CodeTable `CT` (10 R37): key and symbol, in the order the keys were recorded.
The map it stands for is read by `codeLookup` (Decode.lean); a later entry wins. -/
abbrev CodeTable := List (Bits × Byte)

end Sys2Proof
end

