-- ==== Sys2Proof/Config.lean ====
section
/-!
DEFINITION. The implementation parameters of 00 R5 that the spec leaves OPEN and behaviour depends on.
Their values for one machine are plain data in `State.params`, which no step changes (log entry 5).
-/
namespace Sys2Proof

/-- Which function `AlphabetEnd(n, L)` is (41 R143).
`tso`: body (a), the default.
`tsoTimes8`: body (b), the reference tool's reported behaviour.
`other`: any other function, the uninterpreted `Config.otherAlphabetEnd`. -/
inductive AlphabetEndBody where
  | tso
  | tsoTimes8
  | other
  deriving DecidableEq, Repr

/-- An `AlphabetEnd` that is neither body of 41 R143: it has no body, so what is proved holds for every function of
`n` and `L` (92 D3, D32). -/
opaque Config.otherAlphabetEnd : Nat → Nat → Nat

/-- The parameters of one machine (00 R5): the body of `AlphabetEnd`, and the value of `NEWLINE`. -/
structure Params where
  alphabetEnd : AlphabetEndBody
  newline     : Byte
  deriving DecidableEq, Repr

/-- The defaults 00 R5 gives: body (a), and 0x0A (92 D3, D14). -/
def Params.default : Params := { alphabetEnd := .tso, newline := 0x0A }

end Sys2Proof
end

