-- ==== Sys2Proof/Syntax.lean ====
section
/-!
DEFINITION. The instructions: one constructor per row of spec/opcode_table.json (30 R90, R100), and the phase that
selects how bits are decoded.
-/
namespace Sys2Proof

/-- The values of `PHASE` (10 R22). -/
inductive Phase where
  | idle
  | header
  | alphabet
  | tree
  | pad
  | decode
  | done
  | error
  deriving DecidableEq, Repr

/-- The instructions of the block: stream elements, BitReader primitives, host commands. -/
inductive Instr where
  /-- SIZE `n` (30 R92, 41 R141). -/
  | size (n : Byte)
  /-- SYM `s` (30 R93, 42 R151). -/
  | sym (s : Byte)
  /-- NODE (30 R94, 43 R162). -/
  | node
  /-- LEAF (30 R94, 43 R163). -/
  | leaf
  /-- PAD (30 R95, 44 R181): its length is computed, not encoded. -/
  | pad
  /-- CODE.EMIT with the matched key `k`; its operand is the symbol `CT(k)` (30 R96, 44 R186). -/
  | codeEmit (k : Bits)
  /-- CODE.TERM with the matched key `k` (44 R188). -/
  | codeTerm (k : Bits)
  /-- CODE.DROP with the matched key `k` (44 R189). -/
  | codeDrop (k : Bits)
  /-- EOS, the zero-length element at the end of the input (30 R97, 44 R191). -/
  | eos
  /-- LOAD of the byte sequence `bs` (40 R121, 45 R215). -/
  | load (bs : List Byte)
  /-- BIT at index `i` (40 R122). -/
  | bit (i : Nat)
  /-- SLICE of the half-open range from `lo` to `hi` (40 R123). -/
  | slice (lo hi : Nat)
  /-- UINT of the bit string `w` (40 R124). -/
  | uint (w : Bits)
  /-- RESET (45 R214). -/
  | reset
  /-- CONFIG with the register value `v` of 10 R41 (45 R216). -/
  | config (v : Word)
  /-- START (45 R217). -/
  | start
  /-- RESULT (45 R218). -/
  | result
  deriving DecidableEq, Repr

/-- The commands the host can issue (45 R221). BIT, SLICE and UINT are not among them: element rules invoke them. -/
inductive Command where
  | reset
  | load (bs : List Byte)
  | config (v : Word)
  | start
  | result
  deriving DecidableEq, Repr

/-- The instruction a command is. -/
def Command.toInstr : Command → Instr
  | .reset => .reset
  | .load bs => .load bs
  | .config v => .config v
  | .start => .start
  | .result => .result

/-- One move of the host's side, held in order in `State.host` (log entry 2): `issue c` puts a command before the
sequencer's next step, `wait` lets the sequencer take one step first. -/
inductive HostMove where
  | issue (c : Command)
  | wait
  deriving DecidableEq, Repr

end Sys2Proof
end

