-- ==== Sys2Proof/WellFormed.lean ====
section
/-!
DEFINITION. Which instruction terms the format has.
-/
namespace Sys2Proof

/-- A CODE is a bit string of length 1 or more (30 R96), at most 255 bits (spec/opcode_table.json, 43 R168(f)). -/
def codeKeyOk (k : Bits) : Bool := decide (1 ≤ k.length) && decide (k.length ≤ 255)

/-- Well-formed instructions. Every SIZE and SYM byte is legal (30 R92, R93), so is every CFG value (45 R216) and every
operand of LOAD, BIT, SLICE and UINT (40 R121 to R124: an operand out of range raises an error, it is not malformed). -/
def Instr.wellFormed : Instr → Bool
  | .size _ => true
  | .sym _ => true
  | .node => true
  | .leaf => true
  | .pad => true
  | .codeEmit k => codeKeyOk k
  | .codeTerm k => codeKeyOk k
  | .codeDrop k => codeKeyOk k
  | .eos => true
  | .load _ => true
  | .bit _ => true
  | .slice _ _ => true
  | .uint _ => true
  | .reset => true
  | .config _ => true
  | .start => true
  | .result => true

end Sys2Proof
end

