-- ==== Sys2Proof/Decode.lean ====
section
/-!
DEFINITION. From bits to instructions (30 R90 to R100) and back: the decoder, total on any bits, then the encoder.
Which element a run of bits is depends on the phase and, in the DECODE phase, on the CodeTable and on CFG.
-/
namespace Sys2Proof

/-! ### Bit strings and bytes -/

/-- `uint(w)`: first bit most significant (00 R9, 40 R124). -/
def bitsToNat (w : Bits) : Nat := w.foldl (fun acc b => 2 * acc + b.toNat) 0

/-- The 8 bits of a byte, most significant first (20 R61). -/
def byteBits (b : Byte) : Bits := (List.range 8).map b.getMsbD

/-- The bits of a byte sequence, byte order kept (20 R61, R62). -/
def bytesBits (bs : List Byte) : Bits := bs.flatMap byteBits

/-! ### CFG (10 R41) -/

/-- CFG bits 7:0, the terminator symbol value. -/
def cfgTerm (v : Word) : Byte := v.extractLsb' 0 8

/-- CFG bits 15:8, the symbol to suppress. -/
def cfgRem (v : Word) : Byte := v.extractLsb' 8 8

/-- CFG bit 16, MODE: false = unfiltered, true = filtered/terminated. -/
def cfgMode (v : Word) : Bool := v.getLsbD 16

/-- CFG bit 17, TERM_EN. -/
def cfgTermEn (v : Word) : Bool := v.getLsbD 17

/-- CFG bit 18, REM_EN. -/
def cfgRemEn (v : Word) : Bool := v.getLsbD 18

/-! ### CodeTable lookup -/

/-- `CT(k)`, and whether `k ∈ dom(CT)` (00 R11): the symbol the latest entry binds to `k`. Keys are equal when they have
the same length and the same bits (00 R8, 44 R184). -/
def codeLookup : CodeTable → Bits → Option Byte
  | [], _ => none
  | (k', s) :: t, k =>
    match codeLookup t k with
    | some x => some x
    | none => if k' = k then some s else none

/-! ### The decoder -/

/-- What decoding depends on besides the bits (30 R90, R103). -/
structure DecodeContext where
  /-- `PHASE`. -/
  phase  : Phase
  /-- `CAND`: bits of the current CODE already taken from the input. -/
  cand   : Bits
  /-- `CT`. -/
  ct     : CodeTable
  /-- `CFG`. -/
  cfg    : Word
  /-- The length of a PAD standing here, `(L - TEO) mod 8`. -/
  padLen : Nat
  deriving DecidableEq, Repr

/-- What the decoder answers: an instruction and the bits after it, or a rejection by name. -/
inductive Decoded where
  /-- An instruction stands here. -/
  | instr (i : Instr) (rest : Bits)
  /-- Fewer bits than the element of this phase has. -/
  | short
  /-- DECODE phase: the bits end inside a CODE; `c` is the candidate so far. -/
  | incomplete (c : Bits)
  /-- No element stands anywhere in this phase (IDLE, DONE, ERROR). -/
  | noElement
  deriving DecidableEq, Repr

/-- Which CODE element a matched key `k` with symbol `s` is; first matching line wins (30 R99, 44 R187, R190). -/
def classifyCode (cfg : Word) (s : Byte) (k : Bits) : Instr :=
  if cfgMode cfg = false then .codeEmit k
  else if cfgTermEn cfg = true ∧ s = cfgTerm cfg then .codeTerm k
  else if cfgRemEn cfg = true ∧ s = cfgRem cfg then .codeDrop k
  else .codeEmit k

/-- Extend the candidate one bit at a time until it is a key of `CT` (30 R100, R103). -/
def matchCode (ct : CodeTable) (cfg : Word) : Bits → Bits → Decoded
  | cand, [] => .incomplete cand
  | cand, b :: rest =>
    match codeLookup ct (cand ++ [b]) with
    | some s => .instr (classifyCode cfg s (cand ++ [b])) rest
    | none => matchCode ct cfg (cand ++ [b]) rest

/-- An 8-bit field, first bit most significant (30 R98). -/
def decodeByte (f : Byte → Instr) (bits : Bits) : Decoded :=
  if 8 ≤ bits.length then .instr (f (BitVec.ofNat 8 (bitsToNat (bits.take 8)))) (bits.drop 8) else .short

/-- The decoder (30 R100): the instruction that stands at the head of `bits`. In the ALPHABET phase it is asked only
while `CUR < AEND`; in the DECODE phase no bits left is EOS. -/
def decode (c : DecodeContext) (bits : Bits) : Decoded :=
  match c.phase with
  | .header => decodeByte .size bits
  | .alphabet => decodeByte .sym bits
  | .tree =>
    match bits with
    | [] => .short
    | false :: rest => .instr .node rest
    | true :: rest => .instr .leaf rest
  | .pad => .instr .pad (bits.drop c.padLen)
  | .decode =>
    match bits with
    | [] => .instr .eos []
    | b :: rest => matchCode c.ct c.cfg c.cand (b :: rest)
  | .idle => .noElement
  | .done => .noElement
  | .error => .noElement

/-- The decoder on whole bytes. -/
def decodeBytes (c : DecodeContext) (bs : List Byte) : Decoded := decode c (bytesBits bs)

/-! ### The opcode table's words -/

/-- The phase and the first container byte of a word of spec/opcode_table.json (log entry 12). The table fixes bits only
in the T1 rows, whose one bit is bit 0 of the word and the FIRST (most significant) bit of the byte it stands in
(20 R61); any other 8-bit word is a SIZE, the element an operation begins with. -/
def tableLayout (nbits w : Nat) : Option (Phase × Byte) :=
  if nbits = 1 ∨ nbits = 8 then
    if w = 0 then some (.tree, 0x00)
    else if w = 1 then some (.tree, 0x80)
    else if nbits = 8 ∧ w < 256 then some (.header, BitVec.ofNat 8 w)
    else none
  else none

/-- The context a table word is decoded in: the phase, with no table and no configuration. -/
def tableContext (ph : Phase) : DecodeContext := { phase := ph, cand := [], ct := [], cfg := 0, padLen := 0 }

/-- The instruction the decoder reads from the opcode table's word `w` of `nbits` bits. -/
def decodeTableWord (nbits w : Nat) : Option Instr :=
  match tableLayout nbits w with
  | some (ph, b) =>
    match decodeBytes (tableContext ph) [b] with
    | .instr i _ => some i
    | .short => none
    | .incomplete _ => none
    | .noElement => none
  | none => none

/-! ### The encoder -/

/-- The bits of an instruction, from the formats of 30 R92 to R97; `padLen` is the length of a PAD standing there, whose
bits are don't-care and written as zeros (30 R95, R106). Primitives and host commands have no encoding (30 R100). -/
def encode (padLen : Nat) : Instr → Option Bits
  | .size n => some (byteBits n)
  | .sym s => some (byteBits s)
  | .node => some [false]
  | .leaf => some [true]
  | .pad => some (List.replicate padLen false)
  | .codeEmit k => some k
  | .codeTerm k => some k
  | .codeDrop k => some k
  | .eos => some []
  | .load _ => none
  | .bit _ => none
  | .slice _ _ => none
  | .uint _ => none
  | .reset => none
  | .config _ => none
  | .start => none
  | .result => none

/-- The number of bits of an instruction in the container (30 R103, spec/opcode_table.json). -/
def Instr.width (padLen : Nat) : Instr → Nat
  | .size _ => 8
  | .sym _ => 8
  | .node => 1
  | .leaf => 1
  | .pad => padLen
  | .codeEmit k => k.length
  | .codeTerm k => k.length
  | .codeDrop k => k.length
  | .eos => 0
  | .load _ => 0
  | .bit _ => 0
  | .slice _ _ => 0
  | .uint _ => 0
  | .reset => 0
  | .config _ => 0
  | .start => 0
  | .result => 0

end Sys2Proof
end

