-- ==== Sys2Proof/Machine/State.lean ====
section
/-!
DEFINITION. The state of the block (10 R20), plain data, and its reset value (10 R45).
-/
namespace Sys2Proof.Machine

/-- `BYTES` (10 R21): byte `j` of the input is the cell at address `j`. An address that is not listed does not exist
(20 R71): it has no value, so no entry can equal one. -/
abbrev Memory := List Host.Cell

/-- The canonical form of a memory: its addresses are 0, 1, 2, ... in this order, so equal inputs are equal lists. -/
def Memory.wf (m : Memory) : Bool := decide (m.map Prod.fst = List.range m.length)

/-- The error kinds (60 R236). -/
inductive ErrKind where
  | none
  | outOfRange
  | leafMismatch
  | invalidPrefixCode
  | truncation
  | degenerateTree
  deriving DecidableEq, Repr

/-- What the block last handed over at its boundary (log entry 3); no element of the spec's state. -/
inductive Reply where
  /-- Nothing handed over yet. -/
  | nothing
  /-- RESULT while neither DONE nor ERROR: STATUS only (45 R218). -/
  | status (st : Word)
  /-- RESULT in DONE: STATUS and the message (45 R218). -/
  | message (st : Word) (out : List Byte)
  /-- RESULT in ERROR: STATUS and the triple ERR, ERRPHASE, ERRPOS (45 R218). -/
  | failure (st : Word) (err : ErrKind) (errPhase : Phase) (errPos : Nat)
  /-- The result of BIT (40 R122). -/
  | bit (b : Bool)
  /-- The result of SLICE (40 R123). -/
  | slice (w : Bits)
  /-- The result of UINT (40 R124). -/
  | uint (n : Nat)
  deriving DecidableEq, Repr

/-- The state: every element of 10 R20, then the model's own fields `host`, `reply`, `params` (log entries 2, 3, 5). -/
structure State where
  /-- `BYTES`; `N`, `L` and `BITS` are read from it (10 R21). -/
  bytes    : Memory
  /-- `PHASE` (10 R22). -/
  phase    : Phase
  /-- `ERR` (10 R23). -/
  err      : ErrKind
  /-- `ERRPHASE` (10 R23). -/
  errPhase : Phase
  /-- `ERRPOS` (10 R23). -/
  errPos   : Nat
  /-- `CUR`, the bit cursor (10 R24). -/
  cur      : Nat
  /-- `ASIZE` (10 R25). -/
  asize    : Byte
  /-- `TSO` (10 R26). -/
  tso      : Nat
  /-- `AEND` (10 R27). -/
  aend     : Nat
  /-- `SYM` (10 R35). -/
  sym      : List Byte
  /-- `LEAF` (10 R29). -/
  leaf     : Nat
  /-- `PATH` (10 R30). -/
  path     : Bits
  /-- `STK` (10 R39), top of the stack at the head. -/
  stk      : List Bits
  /-- `CT` (10 R37). -/
  ct       : CodeTable
  /-- `TEO` (10 R28). -/
  teo      : Nat
  /-- `PADLEN` (10 R28). -/
  padLen   : Nat
  /-- `MSO` (10 R28). -/
  mso      : Nat
  /-- `CAND` (10 R31). -/
  cand     : Bits
  /-- `OUT` (10 R40). -/
  out      : List Byte
  /-- `TERMSTOP` (10 R32(c)). -/
  termStop : Bool
  /-- `CFG` (10 R41). -/
  cfg      : Word
  /-- The host's coming moves, next first (log entry 2). -/
  host     : List HostMove
  /-- The last answer at the boundary (log entry 3). -/
  reply    : Reply
  /-- The parameters of this machine (log entry 5). -/
  params   : Params
  deriving DecidableEq, Repr

/-- The state after RESET (10 R45, 70 R260). The last three fields are the model's own (log entries 2, 3, 5). -/
def State.reset : State where
  bytes    := []
  phase    := .idle
  err      := .none
  errPhase := .idle
  errPos   := 0
  cur      := 0
  asize    := 0
  tso      := 0
  aend     := 0
  sym      := []
  leaf     := 0
  path     := []
  stk      := []
  ct       := []
  teo      := 0
  padLen   := 0
  mso      := 0
  cand     := []
  out      := []
  termStop := false
  cfg      := 0
  host     := []
  reply    := .nothing
  params   := Params.default

/-- Reasons the machine stops with a fault. There are none: every error of this hardware is a NEXT state with
`PHASE = ERROR` (45 R212, 60 R238), and no rule leaves a running phase without a step (93, end of section 1). -/
inductive Fault where
  deriving DecidableEq, Repr

/-- Reasons a step is refused. -/
inductive Refusal where
  /-- Raised only by an arm of `exec` whose instruction has no meaning yet; safe, the model stops where the hardware
  goes on. No arm raises it now. -/
  | notModelled (mnemonic : String)
  deriving DecidableEq, Repr

end Sys2Proof.Machine
end

