-- ==== Sys2Proof/Machine/Ops.lean ====
section
/-!
DEFINITION. The named operations over the state: the bit-addressed input, the tables, error entry, and what leaves it.
-/
namespace Sys2Proof.Machine

/-! ### The bit-addressed input (BitReader, 40) -/

/-- The byte at a byte address; none where the address does not exist. -/
def memRead : Memory → Nat → Option Byte
  | [], _ => none
  | (a, b) :: m, j => if a = j then some b else memRead m j

/-- The memory that holds the byte sequence `bs` at the addresses `a`, `a + 1`, ... -/
def memOfBytesFrom : Nat → List Byte → Memory
  | _, [] => []
  | a, b :: bs => (a, b) :: memOfBytesFrom (a + 1) bs

/-- LOAD's effect on BYTES (40 R121). -/
def memOfBytes (bs : List Byte) : Memory := memOfBytesFrom 0 bs

/-- `L = 8 N` (10 R21). -/
def memBitLen (m : Memory) : Nat := 8 * m.length

/-- BIT (40 R122): bit `7 - i mod 8` of byte `i div 8`, none when `i ≥ L`. -/
def memBit (m : Memory) (i : Nat) : Option Bool :=
  if i < memBitLen m then
    match memRead m (i / 8) with
    | some b => some (b.getMsbD (i % 8))
    | none => none
  else none

/-- The `n` bits from index `lo` on; none as soon as one of them does not exist. -/
def memBitsFrom (m : Memory) : Nat → Nat → Option Bits
  | _, 0 => some []
  | lo, n + 1 =>
    match memBit m lo with
    | some b =>
      match memBitsFrom m (lo + 1) n with
      | some w => some (b :: w)
      | none => none
    | none => none

/-- SLICE (40 R123): the bits of the half-open range; none when `lo > hi` or `hi > L`, never a shorter string. -/
def memSlice (m : Memory) (lo hi : Nat) : Option Bits :=
  if hi < lo ∨ memBitLen m < hi then none else memBitsFrom m lo (hi - lo)

/-- `L` of the loaded input. -/
def State.bitLen (s : State) : Nat := memBitLen s.bytes

/-- `BITS`, the whole bit sequence (10 R21). -/
def State.bits (s : State) : Bits := bytesBits (s.bytes.map Prod.snd)

/-! ### The tables -/

/-- `g ∉ SYM` appends, a duplicate is dropped (42 R151). -/
def symInsert (sym : List Byte) (g : Byte) : List Byte := if g ∈ sym then sym else sym ++ [g]

/-- `CT[k ↦ s]` (00 R11). -/
def codeInsert (ct : CodeTable) (k : Bits) (s : Byte) : CodeTable := ct ++ [(k, s)]

/-- `PrefixFree(CT)` (43 R167): exhaustive pairwise check, no key is a prefix of another; a key recorded twice fails. -/
def prefixFree : CodeTable → Bool
  | [] => true
  | e :: t => t.all (fun e' => !e.1.isPrefixOf e'.1 && !e'.1.isPrefixOf e.1) && prefixFree t

/-! ### Errors (60) -/

/-- Error entry (60 R238) with the value `PHASE` had when the error was raised given: `ERR`, `ERRPHASE` and `ERRPOS` are
recorded, `OUT` is emptied, `PHASE` becomes ERROR, and nothing else of the failing step happens. -/
def raiseIn (ph : Phase) (k : ErrKind) (pos : Nat) (s : State) : State :=
  { s with err := k, errPhase := ph, errPos := pos, out := [], phase := .error }

/-- `raise K(pos)` (60 R238). There is no return from it (60 R240): ERROR is left by START, that is
`startOperation`, or by RESET, that is `resetBlock`. -/
def raise (k : ErrKind) (pos : Nat) (s : State) : State := raiseIn s.phase k pos s

/-! ### Reset and the start of an operation -/

/-- RESET (45 R214): every state element takes its value of 10 R45. The host's coming moves, the last answer it was given
and the machine's parameters are no state elements of the block, and stay (log entries 2, 3, 5). -/
def resetBlock (s : State) : State :=
  { State.reset with host := s.host, reply := s.reply, params := s.params }

/-- START (10 R46, 45 R217): every per-op element takes its RESET value, ERR, ERRPHASE, ERRPOS take 0, BYTES and CFG are
kept, and the phase is HEADER. -/
def startOperation (s : State) : State :=
  { resetBlock s with bytes := s.bytes, cfg := s.cfg, phase := .header }

/-- Hand an answer over at the boundary; no element of the block changes. -/
def setReply (r : Reply) (s : State) : State := { s with reply := r }

end Sys2Proof.Machine
end

