-- ==== Sys2Proof/Machine/Operands.lean ====
section
/-!
DEFINITION. The operand forms: the scaled immediate of SIZE, the alphabet boundary, the symbol of a leaf and of a CODE.
-/
namespace Sys2Proof.Machine

/-- `tree_start_offset = 8 × (n + 2)`, on naturals (41 R142, 30 R98(a)). -/
def treeStart (n : Byte) : Nat := 8 * (n.toNat + 2)

/-- `AlphabetEnd(n, L)` (41 R143): body (a) `8 × (n + 2)`, body (b) `min(64 × (n + 2), L)`, or any other function. -/
def alphabetEnd (body : AlphabetEndBody) (n : Byte) (len : Nat) : Nat :=
  match body with
  | .tso => 8 * (n.toNat + 2)
  | .tsoTimes8 => min (64 * (n.toNat + 2)) len
  | .other => Config.otherAlphabetEnd n.toNat len

/-- The symbol a leaf takes: `SYM[LEAF]`, none when no unused entry remains (43 R163, R165). -/
def leafSymbol (s : State) : Option Byte := s.sym[s.leaf]?

/-- The operand of a CODE: `CT(k)` (30 R96). -/
def codeSymbol (s : State) (k : Bits) : Option Byte := codeLookup s.ct k

/-- `(L - TEO) mod 8`, the length of the PAD that stands after the tree (30 R95, 44 R181). -/
def padLength (s : State) : Nat := (s.bitLen - s.teo) % 8

end Sys2Proof.Machine
end

