-- ==== Sys2Proof/Machine/Flags.lean ====
section
/-!
DEFINITION. Phase and error codes, the STATUS view, and which phases are running. The one stored flag is TERMSTOP
(10 R32(c)); the leaf signal and the match condition are not stored (10 R32(a), (b)).
-/
namespace Sys2Proof.Machine

/-- The 3-bit code of a phase (10 R22). -/
def phaseCode : Phase → BitVec 3
  | .idle => 0
  | .header => 1
  | .alphabet => 2
  | .tree => 3
  | .pad => 4
  | .decode => 5
  | .done => 6
  | .error => 7

/-- The 3-bit code of an error kind (10 R23, 60 R236). -/
def errCode : ErrKind → BitVec 3
  | .none => 0
  | .outOfRange => 1
  | .leafMismatch => 2
  | .invalidPrefixCode => 3
  | .truncation => 4
  | .degenerateTree => 5

/-- BUSY: the phases in which the sequencer has a step (10 R33, 45 R210). -/
def phaseRunning : Phase → Bool
  | .idle => false
  | .header => true
  | .alphabet => true
  | .tree => true
  | .pad => true
  | .decode => true
  | .done => false
  | .error => false

/-- An operation is running (45 R219). -/
def State.running (s : State) : Bool := phaseRunning s.phase

/-- STATUS (10 R33): PHASE in bits 2:0, ERR in 5:3, TERMSTOP in 6, BUSY in 7, 31:8 read as 0. -/
def State.status (s : State) : Word :=
  BitVec.setWidth 32
    (BitVec.ofBool s.running ++ BitVec.ofBool s.termStop ++ errCode s.err ++ phaseCode s.phase)

end Sys2Proof.Machine
end

