-- ==== Sys2Proof/Machine/Fetch.lean ====
section
/-!
DEFINITION. Fetching: which step the state selects (45 R212), and the bits handed to the decoder.
-/
namespace Sys2Proof.Machine

/-- The one enabled step of the sequencer (45 R210, R212). -/
inductive Fetched where
  /-- The decoder reads an instruction at the cursor. -/
  | element (i : Instr)
  /-- ALPHABET with `CUR` at the boundary: the phase exit (42 R152). -/
  | alphabetExit
  /-- A message bit that does not complete a key: the candidate becomes `c` (44 R183). -/
  | shift (c : Bits)
  /-- The bits asked for do not exist (20 R71); the position ERRPOS records. -/
  | outOfRange (pos : Nat)
  /-- No enabled step: IDLE, DONE, ERROR (45 R210). -/
  | idle
  deriving DecidableEq, Repr

/-- What the decoder is given besides the bits. -/
def State.decodeContext (s : State) : DecodeContext :=
  { phase := s.phase, cand := s.cand, ct := s.ct, cfg := s.cfg, padLen := padLength s }

/-- What the decoder says of the bits `w` at the cursor. -/
def fetchWith (s : State) (w : Bits) : Fetched :=
  match decode s.decodeContext w with
  | .instr i _ => .element i
  | .short => .outOfRange s.cur
  | .incomplete c => .shift c
  | .noElement => .idle

/-- Decode the bits of an access, or raise where it leaves the input, with the position the access reports. -/
def fetchBits (s : State) (pos : Nat) (w : Option Bits) : Fetched :=
  match w with
  | some w => fetchWith s w
  | none => .outOfRange pos

/-- The step the state selects (45 R212).
HEADER checks `L < 8` itself, so that ERRPOS is 0 (41 R141, 90 C13); TREE and DECODE read one bit, by BIT; SYM by SLICE. -/
def fetch (s : State) : Fetched :=
  match s.phase with
  | .idle => .idle
  | .header => if s.bitLen < 8 then .outOfRange 0 else fetchBits s 8 (memSlice s.bytes 0 8)
  | .alphabet =>
    if s.cur < s.aend then fetchBits s (s.cur + 8) (memSlice s.bytes s.cur (s.cur + 8)) else .alphabetExit
  | .tree => fetchBits s s.cur ((memBit s.bytes s.cur).map fun b => [b])
  | .pad => fetchWith s []
  | .decode =>
    if s.cur = s.bitLen then fetchWith s [] else fetchBits s s.cur ((memBit s.bytes s.cur).map fun b => [b])
  | .done => .idle
  | .error => .idle

end Sys2Proof.Machine
end

