-- ==== Sys2Proof/Machine/Alphabet.lean ====
section
/-!
DEFINITION. AlphabetExtractor (42): SYM, and the exit of the ALPHABET phase.
-/
namespace Sys2Proof.Machine

/-- SYM (42 R151): a first occurrence is appended, a duplicate is dropped. -/
def execSym (g : Byte) (s : State) : Host.Outcome State Fault Refusal :=
  .next { s with sym := symInsert s.sym g, cur := s.cur + 8 }

/-- ALPHABET phase exit (42 R152): no bits consumed; the cursor goes to `TSO`. -/
def alphabetExit (s : State) : State :=
  { s with cur := s.tso, path := [], stk := [], leaf := 0, phase := .tree }

end Sys2Proof.Machine
end

