-- ==== Sys2Proof/Machine/BitReader.lean ====
section
/-!
DEFINITION. BitReader (40): LOAD, BIT, SLICE, UINT.
-/
namespace Sys2Proof.Machine

/-- LOAD (40 R121, 45 R215): replaces BYTES and nothing else; while an operation runs it has no effect (45 R219). -/
def execLoad (bs : List Byte) (s : State) : Host.Outcome State Fault Refusal :=
  .next (if s.running then s else { s with bytes := memOfBytes bs })

/-- BIT (40 R122): the bit at `i`, or OUT_OF_RANGE(i). -/
def execBit (i : Nat) (s : State) : Host.Outcome State Fault Refusal :=
  .next (match memBit s.bytes i with
    | some b => setReply (.bit b) s
    | none => raise .outOfRange i s)

/-- SLICE (40 R123): the bits from `lo` to `hi`, or OUT_OF_RANGE(hi). -/
def execSlice (lo hi : Nat) (s : State) : Host.Outcome State Fault Refusal :=
  .next (match memSlice s.bytes lo hi with
    | some w => setReply (.slice w) s
    | none => raise .outOfRange hi s)

/-- UINT (40 R124): a pure function of its operand. -/
def execUint (w : Bits) (s : State) : Host.Outcome State Fault Refusal :=
  .next (setReply (.uint (bitsToNat w)) s)

end Sys2Proof.Machine
end

