-- ==== Sys2Proof/Machine/Commands.lean ====
section
/-!
DEFINITION. The host commands RESET, CONFIG, START, RESULT (45), and the host's test reads.
-/
namespace Sys2Proof.Machine

/-- The CFG bits that are not reserved (10 R41). -/
def cfgMask : Word := 0x0007FFFF

/-- RESET (45 R214): accepted in every phase. -/
def execReset (s : State) : Host.Outcome State Fault Refusal := .next (resetBlock s)

/-- CONFIG (45 R216): reserved bits forced to 0; while an operation runs it has no effect (45 R219). -/
def execConfig (v : Word) (s : State) : Host.Outcome State Fault Refusal :=
  .next (if s.running then s else { s with cfg := v &&& cfgMask })

/-- START (45 R217); while an operation runs it has no effect (45 R219). -/
def execStart (s : State) : Host.Outcome State Fault Refusal :=
  .next (if s.running then s else startOperation s)

/-- What RESULT answers (45 R218, R219). -/
def resultReply (s : State) : Reply :=
  match s.phase with
  | .idle => .status s.status
  | .header => .status s.status
  | .alphabet => .status s.status
  | .tree => .status s.status
  | .pad => .status s.status
  | .decode => .status s.status
  | .done => .message s.status s.out
  | .error => .failure s.status s.err s.errPhase s.errPos

/-- RESULT (45 R218): changes no state of the block. -/
def execResult (s : State) : Host.Outcome State Fault Refusal := .next (setReply (resultReply s) s)

/-- The internal elements a host may read for test (45 R225). -/
structure TestView where
  asize  : Byte
  tso    : Nat
  aend   : Nat
  sym    : List Byte
  ct     : CodeTable
  teo    : Nat
  padLen : Nat
  mso    : Nat
  leaf   : Nat
  cur    : Nat
  deriving DecidableEq, Repr

/-- The test reads, in DONE or ERROR only (45 R225). -/
def State.testView (s : State) : Option TestView :=
  if s.phase = .done ∨ s.phase = .error then
    some
      { asize := s.asize, tso := s.tso, aend := s.aend, sym := s.sym, ct := s.ct, teo := s.teo, padLen := s.padLen,
        mso := s.mso, leaf := s.leaf, cur := s.cur }
  else none

end Sys2Proof.Machine
end

