-- ==== Sys2Proof/Machine/Header.lean ====
section
/-!
DEFINITION. HeaderParser (41): SIZE.
-/
namespace Sys2Proof.Machine

/-- The values SIZE writes when its checks pass (41 R141). -/
def sizeAccept (n : Byte) (s : State) : State :=
  { s with
    asize := n
    tso := treeStart n
    aend := alphabetEnd s.params.alphabetEnd n s.bitLen
    cur := 8
    phase := .alphabet }

/-- Whether a value of `AlphabetEnd` is a multiple of 8 from 8 to `L` (41 R144). -/
def boundaryOk (aend len : Nat) : Bool := decide (aend ≤ len) && decide (8 ≤ aend) && decide (aend % 8 = 0)

/-- SIZE (41 R141): the checks in the order written; the first that fails raises. -/
def execSize (n : Byte) (s : State) : Host.Outcome State Fault Refusal :=
  .next (
    if s.bitLen < 8 then raise .outOfRange 0 s
    else if s.bitLen < treeStart n then raise .outOfRange (treeStart n) s
    else if boundaryOk (alphabetEnd s.params.alphabetEnd n s.bitLen) s.bitLen then sizeAccept n s
    else raise .outOfRange (alphabetEnd s.params.alphabetEnd n s.bitLen) s)

end Sys2Proof.Machine
end

