-- ==== Sys2Proof/Machine/Stream.lean ====
section
/-!
DEFINITION. StreamDecoder (44): PAD with DECODE entry, the shift step, CODE.EMIT, CODE.TERM, CODE.DROP, EOS.
-/
namespace Sys2Proof.Machine

/-- PAD (44 R181) with DECODE entry (44 R182). A table with the empty key raises DEGENERATE_TREE from DECODE entry, so
ERRPHASE is DECODE (60 R237), and nothing of PAD is written (60 R238). -/
def execPad (s : State) : Host.Outcome State Fault Refusal :=
  .next (match codeSymbol s [] with
    | some _ => raiseIn .decode .degenerateTree (s.teo + padLength s) s
    | none =>
      { s with
        padLen := padLength s
        mso := s.teo + padLength s
        cur := s.teo + padLength s
        phase := .decode
        cand := [] })

/-- The shift step that completes no key (44 R183): `c` is the candidate with this bit appended. -/
def shiftPending (c : Bits) (s : State) : State := { s with cur := s.cur + 1, cand := c }

/-- The shift step that completes a key (44 R183), before its symbol is acted on. -/
def shiftMatched (s : State) : State := { s with cur := s.cur + 1, cand := [] }

/-- CODE.EMIT (44 R183, R186). A string that is no key of `CT` is no CODE; the shift step keeps it as the candidate. -/
def execCodeEmit (k : Bits) (s : State) : Host.Outcome State Fault Refusal :=
  .next (match codeSymbol s k with
    | some x => { shiftMatched s with out := s.out ++ [x] }
    | none => shiftPending k s)

/-- CODE.TERM (44 R183, R188): the newline in place of the terminator, and the operation is over. -/
def execCodeTerm (k : Bits) (s : State) : Host.Outcome State Fault Refusal :=
  .next (match codeSymbol s k with
    | some _ => { shiftMatched s with out := s.out ++ [s.params.newline], termStop := true, phase := .done }
    | none => shiftPending k s)

/-- CODE.DROP (44 R183, R189): no change beyond the shift step's. -/
def execCodeDrop (k : Bits) (s : State) : Host.Outcome State Fault Refusal :=
  .next (match codeSymbol s k with
    | some _ => shiftMatched s
    | none => shiftPending k s)

/-- EOS (44 R191): a candidate left over is TRUNCATION, at the bit where it began (44 R192). -/
def execEos (s : State) : Host.Outcome State Fault Refusal :=
  .next (if s.cand ≠ [] then raise .truncation (s.bitLen - s.cand.length) s else { s with phase := .done })

end Sys2Proof.Machine
end

