-- ==== Sys2Proof/Machine/Tree.lean ====
section
/-!
DEFINITION. TreeReconstructor (43): NODE, LEAF, and the tree completion of the last LEAF.
-/
namespace Sys2Proof.Machine

/-- NODE (43 R162): remember this node, descend to its left child. -/
def execNode (s : State) : Host.Outcome State Fault Refusal :=
  .next { s with stk := s.path :: s.stk, path := s.path ++ [false], cur := s.cur + 1 }

/-- What every LEAF that finds an unused symbol `x` writes (43 R163). -/
def leafRecord (x : Byte) (s : State) : State :=
  { s with ct := codeInsert s.ct s.path x, leaf := s.leaf + 1, cur := s.cur + 1 }

/-- Tree completion (43 R164): `s` is the state before the LEAF, `r` has what the LEAF has just written. The checks come
in the order written; one that fails raises from `s`, so that nothing of this LEAF happens (60 R238). -/
def completeTree (s r : State) : State :=
  if r.leaf ≠ r.asize.toNat then raise .leafMismatch r.cur s
  else if prefixFree r.ct then { r with teo := r.cur, phase := .pad }
  else raise .invalidPrefixCode r.cur s

/-- LEAF (43 R163): exhaustion raises; else the path is bound to the next symbol, and the walk goes to the right child of
the nearest node still waiting, or completes the tree. -/
def execLeaf (s : State) : Host.Outcome State Fault Refusal :=
  .next (match leafSymbol s with
    | none => raise .leafMismatch s.cur s
    | some x =>
      match s.stk with
      | q :: rest => { leafRecord x s with path := q ++ [true], stk := rest }
      | [] => completeTree s (leafRecord x s))

end Sys2Proof.Machine
end

