-- ==== Sys2Proof/Machine/Dispatch.lean ====
section
/-!
DEFINITION. One arm per instruction.
-/
namespace Sys2Proof.Machine

def exec (i : Instr) (s : State) : Host.Outcome State Fault Refusal :=
  match i with
  | .size n => Sys2Proof.Machine.execSize n s
  | .sym g => Sys2Proof.Machine.execSym g s
  | .node => Sys2Proof.Machine.execNode s
  | .leaf => Sys2Proof.Machine.execLeaf s
  | .pad => Sys2Proof.Machine.execPad s
  | .codeEmit k => Sys2Proof.Machine.execCodeEmit k s
  | .codeTerm k => Sys2Proof.Machine.execCodeTerm k s
  | .codeDrop k => Sys2Proof.Machine.execCodeDrop k s
  | .eos => Sys2Proof.Machine.execEos s
  | .load bs => Sys2Proof.Machine.execLoad bs s
  | .bit j => Sys2Proof.Machine.execBit j s
  | .slice lo hi => Sys2Proof.Machine.execSlice lo hi s
  | .uint w => Sys2Proof.Machine.execUint w s
  | .reset => Sys2Proof.Machine.execReset s
  | .config v => Sys2Proof.Machine.execConfig v s
  | .start => Sys2Proof.Machine.execStart s
  | .result => Sys2Proof.Machine.execResult s

end Sys2Proof.Machine
end

