-- ==== Sys2Proof/Machine/Sequencer.lean ====
section
/-!
DEFINITION. The sequencer's one step (45 R212), and the choice between it and the host (45 R210, R221).
-/
namespace Sys2Proof.Machine

/-- Carry out the step the state selects. With no enabled step nothing happens (log entry 4). -/
def runFetched (f : Fetched) (s : State) : Host.Outcome State Fault Refusal :=
  match f with
  | .element i => exec i s
  | .alphabetExit => .next (alphabetExit s)
  | .shift c => .next (shiftPending c s)
  | .outOfRange pos => .next (raise .outOfRange pos s)
  | .idle => .next s

/-- One step of the sequencer. -/
def sequencerStep (s : State) : Host.Outcome State Fault Refusal := runFetched (fetch s) s

/-- One step of the block and its host: the host's next move, where it has one, says who acts (log entry 2). -/
def stepHost (s : State) : Host.Outcome State Fault Refusal :=
  match s.host with
  | .issue c :: rest => exec c.toInstr { s with host := rest }
  | .wait :: rest => sequencerStep { s with host := rest }
  | [] => sequencerStep s

/-- The state in which the table word laid out as `(ph, b)` stands where the next step fetches: the first byte of the
input, the cursor on it, the phase that selects the format, and no host command before it (log entry 12). -/
def placeWord (ph : Phase) (b : Byte) (s : State) : State :=
  { s with bytes := (0, b) :: s.bytes.drop 1, cur := 0, phase := ph, host := [] }

end Sys2Proof.Machine
end

