-- ==== Sys2Proof/Machine/Step.lean ====
section
/-!
DEFINITION. The step of the machine, and how the host places one table word where the step fetches.
-/
namespace Sys2Proof.Machine

/-- One step. -/
def step (s : State) : Host.Outcome State Fault Refusal := stepHost s

/-- `s` with the opcode table's word `w` of `nbits` bits where `step` fetches its next instruction. -/
def State.withFetchWord (s : State) (nbits w : Nat) : State :=
  match tableLayout nbits w with
  | some (ph, b) => placeWord ph b s
  | none => s

end Sys2Proof.Machine
end

