-- ==== Sys2Proof/Machine/Reference.lean ====
section
/-!
DEFINITION. The big-step forms the spec gives beside the steps: ExtractAlphabet (42 R153), Walk and Reconstruct
(43 R161), DecodeStream (44 R193), Decode (45 R213). They are defined on arbitrary bit strings (92 D30); statements say
that the machine computes them.
-/
namespace Sys2Proof.Machine

/-- `g = uint(BITS[c : c+8])` (42 R153). DESIGN CHOICE (log entry 20, unsafe): where `c + 8` exceeds the bits given, R153 has
no result (20 R71 makes such a read an error); this function reads the bits that exist as a shorter group, none as 0. No
operation calls it there: 41 R144 and 45 R213 check `AEND ≤ L` and `AEND mod 8 = 0` first. -/
def alphabetGroup (bits : Bits) (c : Nat) : Byte := BitVec.ofNat 8 (bitsToNat ((bits.drop c).take 8))

/-- `SYM` after `n` more groups from bit `c` on (42 R153); groups beyond the bits are log entry 20's choice. -/
def extractGroups (bits : Bits) : Nat → Nat → List Byte → List Byte
  | 0, _, sym => sym
  | n + 1, c, sym =>
    extractGroups bits n (c + 8) (symInsert sym (alphabetGroup bits c))

/-- `ExtractAlphabet(BITS, AEND)` (42 R153), for `AEND` a multiple of 8 from 8 to `|BITS|`; for any other `AEND` the groups of
8 bits that begin from bit 8 on and end by `AEND` are read as `alphabetGroup` chooses (DESIGN CHOICE, log entry 20). -/
def extractAlphabet (bits : Bits) (aend : Nat) : List Byte := extractGroups bits ((aend - 8) / 8) 8 []

/-- What the walk of a subtree answers (43 R161). -/
inductive WalkResult where
  | ok (tab : CodeTable) (c k : Nat)
  | error (kind : ErrKind) (pos : Nat)
  deriving DecidableEq, Repr

/-- `Walk(c, path, k, tab)` (43 R161) on the bits and the SymbolTable given. The first argument bounds the depth of the
recursion; more than `L - c` never runs out (43 R171), and running out is reported as running off the input. -/
def walk (bits : Bits) (sym : List Byte) : Nat → Nat → Bits → Nat → CodeTable → WalkResult
  | 0, c, _, _, _ => .error .outOfRange c
  | fuel + 1, c, path, k, tab =>
    match bits[c]? with
    | none => .error .outOfRange c
    | some true =>
      match sym[k]? with
      | none => .error .leafMismatch c
      | some x => .ok (codeInsert tab path x) (c + 1) (k + 1)
    | some false =>
      match walk bits sym fuel (c + 1) (path ++ [false]) k tab with
      | .error kind pos => .error kind pos
      | .ok tab1 c1 k1 => walk bits sym fuel c1 (path ++ [true]) k1 tab1

/-- `Reconstruct(BITS, TSO, SYM, ASIZE)` (43 R161): the table and `TEO`, the third value being the leaf count. -/
def reconstruct (bits : Bits) (tso : Nat) (sym : List Byte) (asize : Nat) : WalkResult :=
  match walk bits sym (bits.length + 1) tso [] 0 [] with
  | .error kind pos => .error kind pos
  | .ok ct teo k =>
    if k ≠ asize then .error .leafMismatch teo
    else if prefixFree ct then .ok ct teo k
    else .error .invalidPrefixCode teo

/-- A complete message, or the kind of the error (45 R213). `stopped` says that the terminator ended it (TERMSTOP). -/
inductive DecodeResult where
  | ok (out : List Byte) (stopped : Bool)
  | error (kind : ErrKind)
  deriving DecidableEq, Repr

/-- The loop of `DecodeStream` (44 R193), with the candidate and the output so far. -/
def decodeLoop (ct : CodeTable) (cfg : Word) (newline : Byte) : Bits → Bits → List Byte → DecodeResult
  | cand, [], out => if cand ≠ [] then .error .truncation else .ok out false
  | cand, b :: bits, out =>
    match codeLookup ct (cand ++ [b]) with
    | some s =>
      if cfgMode cfg = true ∧ cfgTermEn cfg = true ∧ s = cfgTerm cfg then .ok (out ++ [newline]) true
      else if cfgMode cfg = true ∧ cfgRemEn cfg = true ∧ s = cfgRem cfg then
        decodeLoop ct cfg newline [] bits out
      else decodeLoop ct cfg newline [] bits (out ++ [s])
    | none => decodeLoop ct cfg newline (cand ++ [b]) bits out

/-- `DecodeStream(bits, CT, CFG)` (44 R193). -/
def decodeStream (bits : Bits) (ct : CodeTable) (cfg : Word) (newline : Byte) : DecodeResult :=
  match codeLookup ct [] with
  | some _ => .error .degenerateTree
  | none => decodeLoop ct cfg newline [] bits []

/-- The last part of `Decode` (45 R213), from a reconstructed tree on. -/
def decodeMessage (bits : Bits) (cfg : Word) (newline : Byte) : WalkResult → DecodeResult
  | .error kind _ => .error kind
  | .ok ct teo _ => decodeStream (bits.drop (teo + (bits.length - teo) % 8)) ct cfg newline

/-- `Decode(bs, CFG, AlphabetEnd, NEWLINE)` (45 R213). -/
def decodeContainer (bs : List Byte) (cfg : Word) (p : Params) : DecodeResult :=
  let bits := bytesBits bs
  if bits.length < 8 then .error .outOfRange
  else
    let n : Byte := BitVec.ofNat 8 (bitsToNat (bits.take 8))
    let aend := alphabetEnd p.alphabetEnd n bits.length
    if bits.length < treeStart n then .error .outOfRange
    else if bits.length < aend ∨ aend < 8 ∨ aend % 8 ≠ 0 then .error .outOfRange
    else decodeMessage bits cfg p.newline (reconstruct bits (treeStart n) (extractAlphabet bits aend) n.toNat)

end Sys2Proof.Machine
end

