-- ==== Sys2Proof/Safety.lean ====
section
/-!
DEFINITION. The terms claims are made in: runs, the invariants of the spec, which element a context selects, and states
that differ in one respect only.
-/
namespace Sys2Proof

/-! ### Kinds of instructions -/

/-- The elements of the container: what an operation executes (30 R90). -/
def Instr.isElement : Instr → Bool
  | .size _ => true
  | .sym _ => true
  | .node => true
  | .leaf => true
  | .pad => true
  | .codeEmit _ => true
  | .codeTerm _ => true
  | .codeDrop _ => true
  | .eos => true
  | .load _ => false
  | .bit _ => false
  | .slice _ _ => false
  | .uint _ => false
  | .reset => false
  | .config _ => false
  | .start => false
  | .result => false

/-- The instructions that read and hand something over, and write nothing of the block unless they raise
(40 R122 to R125, 45 R218). -/
def Instr.isRead : Instr → Bool
  | .bit _ => true
  | .slice _ _ => true
  | .uint _ => true
  | .result => true
  | .size _ => false
  | .sym _ => false
  | .node => false
  | .leaf => false
  | .pad => false
  | .codeEmit _ => false
  | .codeTerm _ => false
  | .codeDrop _ => false
  | .eos => false
  | .load _ => false
  | .reset => false
  | .config _ => false
  | .start => false

end Sys2Proof

namespace Sys2Proof.Machine

/-! ### Runs -/

/-- `n` steps, stopping at a fault or a refusal. -/
def runSteps : Nat → State → Host.Outcome State Fault Refusal
  | 0, s => .next s
  | n + 1, s =>
    match step s with
    | .next t => runSteps n t
    | .fault r => .fault r
    | .refused r => .refused r

/-- The outcome with its next state changed by `f`. -/
def mapNext (f : State → State) : Host.Outcome State Fault Refusal → Host.Outcome State Fault Refusal
  | .next s => .next (f s)
  | .fault r => .fault r
  | .refused r => .refused r

/-! ### The phase machine (45 R211) -/

/-- The arrows of 45 R211 between two different phases. -/
def phaseArrow : Phase → Phase → Bool
  | _, .idle => true
  | .idle, .header => true
  | .done, .header => true
  | .error, .header => true
  | .header, .alphabet => true
  | .alphabet, .tree => true
  | .tree, .pad => true
  | .pad, .decode => true
  | .decode, .done => true
  | p, .error => phaseRunning p
  | _, _ => false

/-! ### Invariants -/

/-- The input is in its canonical form and CFG's reserved bits are 0 (10 R21, R41). -/
structure FormInv (s : State) : Prop where
  mem : Memory.wf s.bytes = true
  cfg : ∀ i, 19 ≤ i → s.cfg.getLsbD i = false

/-- The error record, OUT and TERMSTOP agree with PHASE (10 R23, R32(c); 20 R78; 45 R226; 60 R238). -/
structure RecordInv (s : State) : Prop where
  errIff   : s.err ≠ .none ↔ s.phase = .error
  errOut   : s.phase = .error → s.out = []
  outPhase : s.out ≠ [] → s.phase = .decode ∨ s.phase = .done
  termStop : s.termStop = true → s.phase = .done

/-- The phases after HEADER of a running operation: the header's values have been written. -/
def headerRead (p : Phase) : Bool :=
  match p with
  | .idle => false
  | .header => false
  | .alphabet => true
  | .tree => true
  | .pad => true
  | .decode => true
  | .done => false
  | .error => false

/-- Where the regions lie and where the cursor is, while an operation runs (10 R24, 20 R65, 41 R146, 44 R181). -/
structure LayoutInv (s : State) : Prop where
  cursor   : s.running = true → s.cur ≤ s.bitLen
  header   : s.phase = .header → s.cur = 0
  offsets  : headerRead s.phase = true →
    s.tso = 8 * (s.asize.toNat + 2) ∧ s.tso ≤ s.bitLen ∧ 8 ≤ s.aend ∧ s.aend ≤ s.bitLen ∧ s.aend % 8 = 0
  alphabet : s.phase = .alphabet → 8 ≤ s.cur ∧ s.cur ≤ s.aend ∧ s.cur % 8 = 0
  tree     : s.phase = .tree → s.tso ≤ s.cur
  pad      : s.phase = .pad → s.teo = s.cur ∧ s.tso ≤ s.teo
  message  : s.phase = .decode →
    s.tso ≤ s.teo ∧ s.padLen = (s.bitLen - s.teo) % 8 ∧ s.mso = s.teo + s.padLen ∧ s.mso ≤ s.cur ∧ s.mso % 8 = 0

/-- A binary tree in which every internal node has exactly two children (10 R38). -/
inductive CodeTree where
  | leaf
  | node (left right : CodeTree)
  deriving DecidableEq, Repr

/-- The root-to-leaf paths of a tree, left before right: false = left child, true = right child (10 R30, 43 R160). -/
def CodeTree.paths : CodeTree → List Bits
  | .leaf => [[]]
  | .node l r => l.paths.map (fun p => false :: p) ++ r.paths.map (fun p => true :: p)

/-- `ks` are exactly the root-to-leaf paths of one full binary tree, in order (43 R168(c)). -/
def FullCode (ks : List Bits) : Prop := ∃ t : CodeTree, t.paths = ks

/-- The keys of `CT` in the order recorded. -/
def codeKeys (ct : CodeTable) : List Bits := ct.map Prod.fst

/-- The paths still to be read in the TREE phase: the current one, then the right child of every node that waits. -/
def State.frontier (s : State) : List Bits := s.path :: s.stk.map (fun q => q ++ [true])

/-- The tables of the running operation (10 R29, R36 to R39; 43 R168; 44 R185). -/
structure TablesInv (s : State) : Prop where
  symNodup : s.sym.Nodup
  header   : s.phase = .header → s.sym = [] ∧ s.ct = [] ∧ s.leaf = 0
  alphabet : s.phase = .alphabet → s.ct = [] ∧ s.leaf = 0
  symbols  : s.phase = .tree ∨ s.phase = .pad ∨ s.phase = .decode → s.leaf ≤ s.sym.length ∧ s.ct.map Prod.snd = s.sym.take s.leaf
  tree     : s.phase = .tree → FullCode (codeKeys s.ct ++ s.frontier) ∧ s.cur = s.tso + 2 * s.leaf + s.stk.length
  table    : s.phase = .pad ∨ s.phase = .decode →
    FullCode (codeKeys s.ct) ∧ s.leaf = s.asize.toNat ∧ s.teo + 1 = s.tso + 2 * s.leaf
  cand     : s.phase = .decode → ([] : Bits) ∉ codeKeys s.ct ∧ (∀ k ∈ codeKeys s.ct, ¬ k <+: s.cand) ∧ ∃ k ∈ codeKeys s.ct, s.cand <+: k

/-! ### What selects an element -/

/-- The context selects the element, and `rest` is what may follow it (30 R90 to R100): the phase of its format, and
for a CODE that its string is a key of `CT` with no proper prefix in `CT`, that no candidate is pending, and that CFG
and its symbol choose it (30 R96, R99); EOS stands at the end. -/
def selects (c : DecodeContext) (i : Instr) (rest : Bits) : Prop :=
  match i with
  | .size _ => c.phase = .header
  | .sym _ => c.phase = .alphabet
  | .node => c.phase = .tree
  | .leaf => c.phase = .tree
  | .pad => c.phase = .pad
  | .eos => c.phase = .decode ∧ rest = []
  | .codeEmit k | .codeTerm k | .codeDrop k =>
    c.phase = .decode ∧ c.cand = [] ∧ (∀ p, p <+: k → p ≠ k → codeLookup c.ct p = none) ∧
      ∃ s, codeLookup c.ct k = some s ∧ classifyCode c.cfg s k = i
  | .load _ => False
  | .bit _ => False
  | .slice _ _ => False
  | .uint _ => False
  | .reset => False
  | .config _ => False
  | .start => False
  | .result => False

/-- What the final state of an operation shows of the result of `Decode` (45 R212, R213, R226). -/
def shows (u : State) (r : DecodeResult) : Prop :=
  match r with
  | .ok out stopped => u.phase = .done ∧ u.err = .none ∧ u.out = out ∧ u.termStop = stopped
  | .error kind => u.phase = .error ∧ u.err = kind ∧ u.out = [] ∧ u.termStop = false

end Sys2Proof.Machine
end

