-- ==== Sys2Proof/Certificates/Slice0/Obligations.lean ====
section
/-!
DEFINITION. The statements for the provers. Each docstring names the rule of spec/ it formalises; the witnesses of the
hypotheses are the `wit_` theorems of Sys2Proof/Tests/Slice0.lean.
-/
open Sys2Proof Sys2Proof.Machine

/-! ### Host commands -/

/-- 10 R45, 45 R214: after RESET, in whatever phase it comes, every state element has its reset value. -/
def Obligations.ResetGivesEveryElementItsValue : Prop :=
  ∀ s : State, ∃ t, exec .reset s = .next t ∧
    t.bytes = [] ∧ t.bitLen = 0 ∧ t.bits = [] ∧ t.phase = .idle ∧ t.err = .none ∧ t.errPhase = .idle ∧ t.errPos = 0 ∧
    t.cur = 0 ∧ t.asize = 0 ∧ t.tso = 0 ∧ t.aend = 0 ∧ t.teo = 0 ∧ t.padLen = 0 ∧ t.mso = 0 ∧ t.leaf = 0 ∧
    t.path = [] ∧ t.cand = [] ∧ t.stk = [] ∧ t.sym = [] ∧ t.ct = [] ∧ t.out = [] ∧ t.termStop = false ∧ t.cfg = 0

/-- The model's choice (log entries 2, 3, 5), no rule of the spec: RESET leaves the host's coming moves, the last answer and
the machine's parameters, and is `State.reset` in everything else; no step ever changes the parameters. -/
def Obligations.ResetKeepsTheHostSide : Prop :=
  (∀ s : State, exec .reset s = .next { State.reset with host := s.host, reply := s.reply, params := s.params }) ∧
  (∀ s t : State, step s = .next t → t.params = s.params)

/-- 40 R121, 45 R215, 20 R61: LOAD replaces the input and nothing else; `BITS[8j + k]` is bit `7 - k` of byte `j`; while an
operation runs it does nothing. -/
def Obligations.LoadReplacesTheInput : Prop :=
  (∀ (bs : List Byte) (s : State), s.running = false →
    exec (.load bs) s = .next { s with bytes := memOfBytes bs }) ∧
  (∀ (bs : List Byte) (s : State), s.running = true → exec (.load bs) s = .next s) ∧
  (∀ bs : List Byte, memBitLen (memOfBytes bs) = 8 * bs.length) ∧
  (∀ (bs : List Byte) (j k : Nat) (b : Byte), bs[j]? = some b → k ≤ 7 →
    memBit (memOfBytes bs) (8 * j + k) = some (decide (b.toNat / 2 ^ (7 - k) % 2 = 1)))

/-- 45 R216, 10 R41: CONFIG writes CFG, reserved bits read 0; while an operation runs it does nothing. -/
def Obligations.ConfigWritesTheRegister : Prop :=
  (∀ (v : Word) (s : State), s.running = false → ∃ t, exec (.config v) s = .next t ∧
    t = { s with cfg := t.cfg } ∧ ∀ i, t.cfg.getLsbD i = (decide (i < 19) && v.getLsbD i)) ∧
  (∀ (v : Word) (s : State), s.running = true → exec (.config v) s = .next s)

/-- 10 R46, 45 R217: START clears every per-op element, keeps the input and CFG, and enters HEADER. -/
def Obligations.StartClearsTheOperation : Prop :=
  (∀ s : State, s.running = false → ∃ t, exec .start s = .next t ∧
    t.phase = .header ∧ t.bytes = s.bytes ∧ t.cfg = s.cfg ∧ t.err = .none ∧ t.errPhase = .idle ∧ t.errPos = 0 ∧
    t.cur = 0 ∧ t.asize = 0 ∧ t.tso = 0 ∧ t.aend = 0 ∧ t.teo = 0 ∧ t.padLen = 0 ∧ t.mso = 0 ∧ t.leaf = 0 ∧
    t.path = [] ∧ t.cand = [] ∧ t.stk = [] ∧ t.sym = [] ∧ t.ct = [] ∧ t.out = [] ∧ t.termStop = false) ∧
  (∀ s : State, s.running = true → exec .start s = .next s)

/-- 70 R262, 45 R223, 10 R44: what START leaves depends on the input, CFG, the parameters and the host's side alone, not on
anything an earlier operation left. -/
def Obligations.StartForgetsTheEarlierOperation : Prop :=
  ∀ s s' : State, s.running = false → s'.running = false → s'.bytes = s.bytes → s'.cfg = s.cfg →
    s'.params = s.params → s'.host = s.host → s'.reply = s.reply → exec .start s' = exec .start s

/-- 45 R219: while an operation runs LOAD, CONFIG and START change no state, RESULT hands over STATUS only, RESET acts.
Where the answer is put (`reply`) is the model's choice (log entry 3). -/
def Obligations.CommandsWhileRunning : Prop :=
  ∀ s : State, s.running = true →
    (∀ bs, exec (.load bs) s = .next s) ∧ (∀ v, exec (.config v) s = .next s) ∧ exec .start s = .next s ∧
    exec .result s = .next { s with reply := .status s.status } ∧
    ∃ t, exec .reset s = .next t ∧ t.phase = .idle ∧ t.err = .none ∧ t.out = []

/-- 45 R218: what RESULT hands over, and that it changes nothing else. Where the answer is put (`reply`) is the model's
choice (log entry 3). -/
def Obligations.ResultHandsOverTheOutcome : Prop :=
  ∀ s : State,
    (s.phase = .done → exec .result s = .next { s with reply := .message s.status s.out }) ∧
    (s.phase = .error → exec .result s = .next { s with reply := .failure s.status s.err s.errPhase s.errPos }) ∧
    (s.phase ≠ .done → s.phase ≠ .error → exec .result s = .next { s with reply := .status s.status })

/-- 10 R33, R22, R23: the fields of STATUS and the codes in them. -/
def Obligations.StatusFields : Prop :=
  (∀ s : State, s.status.extractLsb' 0 3 = phaseCode s.phase ∧ s.status.extractLsb' 3 3 = errCode s.err ∧
    s.status.getLsbD 6 = s.termStop ∧
    s.status.getLsbD 7 =
      decide (s.phase = .header ∨ s.phase = .alphabet ∨ s.phase = .tree ∨ s.phase = .pad ∨ s.phase = .decode) ∧
    ∀ i, 8 ≤ i → s.status.getLsbD i = false) ∧
  [Phase.idle, .header, .alphabet, .tree, .pad, .decode, .done, .error].map phaseCode = [0, 1, 2, 3, 4, 5, 6, 7] ∧
  [ErrKind.none, .outOfRange, .leafMismatch, .invalidPrefixCode, .truncation, .degenerateTree].map errCode =
    [0, 1, 2, 3, 4, 5]

/-! ### BitReader -/

/-- 40 R122, 60 R238: BIT answers the bit, or raises OUT_OF_RANGE(i). The model's choices: where the answer is put (`reply`,
log entry 3), and that BIT on its own raises in every phase, also with no operation running, ERRPHASE being the phase at hand
(log entry 14; 45 R211 has no arrow from IDLE or DONE to ERROR). -/
def Obligations.BitReadsOneBit : Prop :=
  ∀ (s : State) (i : Nat),
    (∀ x, i < s.bitLen → memRead s.bytes (i / 8) = some x →
      exec (.bit i) s = .next { s with reply := .bit (decide (x.toNat / 2 ^ (7 - i % 8) % 2 = 1)) }) ∧
    (s.bitLen ≤ i → exec (.bit i) s =
      .next { s with err := .outOfRange, errPhase := s.phase, errPos := i, out := [], phase := .error })

/-- 40 R123, 60 R238: SLICE answers exactly the bits of the range, or raises OUT_OF_RANGE(hi); it never shortens. The model's
choices: where the answer is put (`reply`, log entry 3), and that SLICE on its own raises in every phase, also with no
operation running, ERRPHASE being the phase at hand (log entry 14). -/
def Obligations.SliceReadsTheRange : Prop :=
  ∀ (s : State) (lo hi : Nat),
    (Memory.wf s.bytes = true → lo ≤ hi → hi ≤ s.bitLen →
      ∃ w, exec (.slice lo hi) s = .next { s with reply := .slice w } ∧ w.length = hi - lo ∧
        ∀ j x, j < hi - lo → memRead s.bytes ((lo + j) / 8) = some x →
          w[j]? = some (decide (x.toNat / 2 ^ (7 - (lo + j) % 8) % 2 = 1))) ∧
    (hi < lo ∨ s.bitLen < hi → exec (.slice lo hi) s =
      .next { s with err := .outOfRange, errPhase := s.phase, errPos := hi, out := [], phase := .error })

/-- 40 R124, 00 R9: UINT answers the number whose first bit is the most significant. Where the answer is put (`reply`) is
the model's choice (log entry 3). -/
def Obligations.UintFirstBitMostSignificant : Prop :=
  (∀ (w : Bits) (s : State), exec (.uint w) s = .next { s with reply := .uint (bitsToNat w) }) ∧
  bitsToNat [] = 0 ∧
  (∀ (b : Bool) (w : Bits), bitsToNat (b :: w) = b.toNat * 2 ^ w.length + bitsToNat w) ∧
  (∀ w : Bits, bitsToNat w < 2 ^ w.length)

/-- 20 R62, R64: a slice and a single read see the same bit, and a byte-aligned 8-bit slice is the byte. -/
def Obligations.WideReadsAgreeWithBits : Prop :=
  (∀ (m : Memory) (a b i : Nat) (w : Bits), memSlice m a b = some w → a ≤ i → i < b → w[i - a]? = memBit m i) ∧
  (∀ (bs : List Byte) (k : Nat) (b : Byte), bs[k]? = some b →
    ∃ w, memSlice (memOfBytes bs) (8 * k) (8 * k + 8) = some w ∧ bitsToNat w = b.toNat)

/-! ### HeaderParser -/

/-- 41 R141, R144: SIZE, its checks in order, the values it writes, and where it stands. -/
def Obligations.SizeReadsTheHeader : Prop :=
  ∀ (s : State) (n : Byte),
    (s.bitLen < 8 → exec (.size n) s =
      .next { s with err := .outOfRange, errPhase := s.phase, errPos := 0, out := [], phase := .error }) ∧
    (8 ≤ s.bitLen → s.bitLen < 8 * (n.toNat + 2) → exec (.size n) s =
      .next { s with err := .outOfRange, errPhase := s.phase, errPos := 8 * (n.toNat + 2), out := [], phase := .error }) ∧
    (∀ e, e = alphabetEnd s.params.alphabetEnd n s.bitLen → 8 ≤ s.bitLen → 8 * (n.toNat + 2) ≤ s.bitLen →
      exec (.size n) s = .next (
        if s.bitLen < e ∨ e < 8 ∨ e % 8 ≠ 0 then
          { s with err := .outOfRange, errPhase := s.phase, errPos := e, out := [], phase := .error }
        else { s with asize := n, tso := 8 * (n.toNat + 2), aend := e, cur := 8, phase := .alphabet })) ∧
    (∀ e, e = alphabetEnd s.params.alphabetEnd n s.bitLen → 8 ≤ s.bitLen → 8 * (n.toNat + 2) ≤ s.bitLen →
      e ≤ s.bitLen → 8 ≤ e → e % 8 = 0 → exec (.size n) s =
        .next { s with asize := n, tso := 8 * (n.toNat + 2), aend := e, cur := 8, phase := .alphabet }) ∧
    (s.phase = .header → Memory.wf s.bytes = true → memRead s.bytes 0 = some n → fetch s = .element (.size n)) ∧
    (s.phase = .header → s.bitLen < 8 → fetch s = .outOfRange 0)

/-- 41 R142, R143: the two offsets of the header, on naturals, for both bodies of `AlphabetEnd`. -/
def Obligations.HeaderOffsets : Prop :=
  ∀ (n : Byte) (len : Nat),
    treeStart n = 8 * (n.toNat + 2) ∧ 16 ≤ treeStart n ∧ treeStart n ≤ 2056 ∧ treeStart n % 8 = 0 ∧
    treeStart 255 = 2056 ∧ alphabetEnd .tso n len = treeStart n ∧
    alphabetEnd .tsoTimes8 n len = min (64 * (n.toNat + 2)) len

/-! ### AlphabetExtractor -/

/-- 42 R151: SYM appends a first occurrence and drops a duplicate; and where it stands. -/
def Obligations.SymCollectsTheAlphabet : Prop :=
  ∀ (s : State) (g : Byte),
    (g ∉ s.sym → exec (.sym g) s = .next { s with sym := s.sym ++ [g], cur := s.cur + 8 }) ∧
    (g ∈ s.sym → exec (.sym g) s = .next { s with cur := s.cur + 8 }) ∧
    (s.phase = .alphabet → s.cur < s.aend → s.cur % 8 = 0 → Memory.wf s.bytes = true →
      memRead s.bytes (s.cur / 8) = some g → fetch s = .element (.sym g))

/-- 42 R152: the exit of the ALPHABET phase. -/
def Obligations.AlphabetExitGoesToTheTree : Prop :=
  ∀ s : State, s.host = [] → s.phase = .alphabet → s.cur = s.aend →
    step s = .next { s with cur := s.tso, path := [], stk := [], leaf := 0, phase := .tree }

/-- 42 R153: running the SYM steps from bit 8 to the boundary collects `ExtractAlphabet(BITS, AEND)`. -/
def Obligations.AlphabetPhaseIsExtractAlphabet : Prop :=
  ∀ s : State, s.host = [] → s.phase = .alphabet → s.cur = 8 → s.sym = [] → 8 ≤ s.aend → s.aend ≤ s.bitLen →
    s.aend % 8 = 0 → Memory.wf s.bytes = true →
    runSteps ((s.aend - 8) / 8) s = .next { s with cur := s.aend, sym := extractAlphabet s.bits s.aend }

/-- 42 R154(a), (b), (d), (e) and the second form of R153: `ExtractAlphabet` has no duplicates and the bounds of (d); a longer
region only appends. On the bits of a byte sequence that holds the region, it lists exactly the bytes 1 to `AEND/8 - 1`, in the
order of their first occurrences. The first two clauses also speak of boundaries beyond the bits, where the groups are the
model's choice (log entry 20). -/
def Obligations.ExtractAlphabetLaws : Prop :=
  (∀ (bits : Bits) (aend : Nat), (extractAlphabet bits aend).Nodup ∧ (extractAlphabet bits aend).length ≤ 256 ∧
    (extractAlphabet bits aend).length ≤ (aend - 8) / 8 ∧ (16 ≤ aend → 1 ≤ (extractAlphabet bits aend).length)) ∧
  (∀ (bits : Bits) (aend aend' : Nat), aend ≤ aend' → extractAlphabet bits aend <+: extractAlphabet bits aend') ∧
  (∀ (bs : List Byte) (aend : Nat) (x : Byte), aend ≤ 8 * bs.length →
    (x ∈ extractAlphabet (bytesBits bs) aend ↔ ∃ j, 1 ≤ j ∧ 8 * (j + 1) ≤ aend ∧ bs[j]? = some x)) ∧
  (∀ (bs : List Byte) (aend i : Nat) (x y : Byte), aend ≤ 8 * bs.length → 1 ≤ i → 8 * (i + 1) ≤ aend →
    bs[i]? = some x → (∀ j, 1 ≤ j → j ≤ i → bs[j]? ≠ some y) → y ∈ extractAlphabet (bytesBits bs) aend →
    (extractAlphabet (bytesBits bs) aend).idxOf x < (extractAlphabet (bytesBits bs) aend).idxOf y)

/-! ### TreeReconstructor -/

/-- 43 R162: NODE, and where it stands. -/
def Obligations.NodeDescendsLeft : Prop :=
  ∀ s : State,
    exec .node s = .next { s with stk := s.path :: s.stk, path := s.path ++ [false], cur := s.cur + 1 } ∧
    (s.phase = .tree → memBit s.bytes s.cur = some false → fetch s = .element .node)

/-- 43 R163, R164, R165, R166: LEAF, all of it. With no unused symbol it raises LEAF_MISMATCH at its own bit and writes
nothing else. Otherwise it binds its path (the map update of 00 R11) and goes to the right child of the nearest node waiting.
The LEAF that finds none waiting completes the tree: the count check, then the prefix check (R167), then PAD; a check that
fails raises with TEO as position, and nothing of the LEAF is written. -/
def Obligations.LeafBindsItsPathOrCompletesTheTree : Prop :=
  (∀ s : State, s.sym.length ≤ s.leaf → exec .leaf s =
    .next { s with err := .leafMismatch, errPhase := s.phase, errPos := s.cur, out := [], phase := .error }) ∧
  (∀ (s : State) (x : Byte) (q : Bits) (rest : List Bits), s.sym[s.leaf]? = some x → s.stk = q :: rest →
    ∃ ct', exec .leaf s = .next
        { s with ct := ct', leaf := s.leaf + 1, cur := s.cur + 1, path := q ++ [true], stk := rest } ∧
      codeLookup ct' s.path = some x ∧ ∀ k, k ≠ s.path → codeLookup ct' k = codeLookup s.ct k) ∧
  (∀ (s : State) (x : Byte), s.sym[s.leaf]? = some x → s.stk = [] →
    (s.leaf + 1 ≠ s.asize.toNat → exec .leaf s =
      .next { s with err := .leafMismatch, errPhase := s.phase, errPos := s.cur + 1, out := [], phase := .error }) ∧
    (s.leaf + 1 = s.asize.toNat →
      (codeKeys s.ct ++ [s.path]).Pairwise (fun a b => ¬ a <+: b ∧ ¬ b <+: a) →
      ∃ ct', exec .leaf s = .next
          { s with ct := ct', leaf := s.leaf + 1, cur := s.cur + 1, teo := s.cur + 1, phase := .pad } ∧
        codeLookup ct' s.path = some x ∧ ∀ k, k ≠ s.path → codeLookup ct' k = codeLookup s.ct k) ∧
    (s.leaf + 1 = s.asize.toNat →
      ¬ (codeKeys s.ct ++ [s.path]).Pairwise (fun a b => ¬ a <+: b ∧ ¬ b <+: a) → exec .leaf s =
      .next { s with err := .invalidPrefixCode, errPhase := s.phase, errPos := s.cur + 1, out := [], phase := .error })) ∧
  (∀ s : State, s.phase = .tree → memBit s.bytes s.cur = some true → fetch s = .element .leaf)

/-- 43 R174: a TREE step with no bit left raises OUT_OF_RANGE(CUR). -/
def Obligations.TreeOffTheEndRaises : Prop :=
  ∀ s : State, s.host = [] → s.phase = .tree → s.bitLen ≤ s.cur → step s =
    .next { s with err := .outOfRange, errPhase := .tree, errPos := s.cur, out := [], phase := .error }

/-- 43 R169: the steps of the TREE phase compute `Walk`. With a node waiting the run goes on at its right child; with none
the last step is tree completion on the walk's results; an error of the walk is the error of the run. -/
def Obligations.TreePhaseIsWalk : Prop :=
  ∀ (fuel : Nat) (s : State), s.host = [] → s.phase = .tree → Memory.wf s.bytes = true → s.bitLen < s.cur + fuel →
    (∀ ct' c' k' q rest, walk s.bits s.sym fuel s.cur s.path s.leaf s.ct = .ok ct' c' k' → s.stk = q :: rest →
      runSteps (c' - s.cur) s = .next { s with ct := ct', cur := c', leaf := k', path := q ++ [true], stk := rest }) ∧
    (∀ ct' c' k', walk s.bits s.sym fuel s.cur s.path s.leaf s.ct = .ok ct' c' k' → s.stk = [] →
      ∃ u, runSteps (c' - s.cur - 1) s = .next u ∧ u.stk = [] ∧ u.phase = .tree ∧
        step u = .next (completeTree u { u with ct := ct', cur := c', leaf := k' })) ∧
    (∀ kind pos, walk s.bits s.sym fuel s.cur s.path s.leaf s.ct = .error kind pos →
      ∃ n u, runSteps n s = .next u ∧ u.phase = .error ∧ u.err = kind ∧ u.errPos = pos ∧ u.errPhase = .tree)

/-- 43 R168(a), (b): a walk is self-delimiting. The bits it consumed hold one more `1` than `0`, every proper prefix of them
holds no more `1` than `0`, and it took one symbol for each `1`. -/
def Obligations.WalkIsSelfDelimiting : Prop :=
  ∀ (bits : Bits) (sym : List Byte) (fuel c k c' k' : Nat) (path : Bits) (ct ct' : CodeTable),
    walk bits sym fuel c path k ct = .ok ct' c' k' →
    c < c' ∧ c' ≤ bits.length ∧
    ((bits.drop c).take (c' - c)).count true = ((bits.drop c).take (c' - c)).count false + 1 ∧
    k' = k + ((bits.drop c).take (c' - c)).count true ∧
    (∀ n, n < c' - c → ((bits.drop c).take n).count true ≤ ((bits.drop c).take n).count false) ∧
    ct'.map Prod.snd = ct.map Prod.snd ++ (sym.take k').drop k

/-! ### StreamDecoder -/

/-- 44 R181, R182: PAD with DECODE entry, its arithmetic, and where it stands. -/
def Obligations.PadSkipsToTheMessage : Prop :=
  ∀ s : State,
    (([] : Bits) ∉ codeKeys s.ct → exec .pad s = .next
      { s with padLen := (s.bitLen - s.teo) % 8, mso := s.teo + (s.bitLen - s.teo) % 8,
               cur := s.teo + (s.bitLen - s.teo) % 8, phase := .decode, cand := [] }) ∧
    (([] : Bits) ∈ codeKeys s.ct → exec .pad s = .next
      { s with err := .degenerateTree, errPhase := .decode, errPos := s.teo + (s.bitLen - s.teo) % 8, out := [],
               phase := .error }) ∧
    (s.teo ≤ s.bitLen → s.teo + (s.bitLen - s.teo) % 8 ≤ s.bitLen ∧ (s.teo + (s.bitLen - s.teo) % 8) % 8 = 0) ∧
    (s.phase = .pad → fetch s = .element .pad)

/-- 44 R186, R188, R189: the three outcomes of a matched CODE, each the effect of its shift step (R183) and its own.
That a CODE executed on its own is its matching shift step is log entry 1. -/
def Obligations.CodeOutcomes : Prop :=
  ∀ (s : State) (k : Bits) (x : Byte), codeLookup s.ct k = some x →
    exec (.codeEmit k) s = .next { s with cur := s.cur + 1, cand := [], out := s.out ++ [x] } ∧
    exec (.codeTerm k) s = .next
      { s with cur := s.cur + 1, cand := [], out := s.out ++ [s.params.newline], termStop := true, phase := .done } ∧
    exec (.codeDrop k) s = .next { s with cur := s.cur + 1, cand := [] }

/-- The model's choice for a form the fetch never gives (log entry 9): a CODE whose string is no key of `CT` is the shift step
that keeps it as the candidate. -/
def Obligations.CodeOfNoKeyOnlyShifts : Prop :=
  ∀ (s : State) (k : Bits), k ∉ codeKeys s.ct →
    exec (.codeEmit k) s = .next { s with cur := s.cur + 1, cand := k } ∧
    exec (.codeTerm k) s = .next { s with cur := s.cur + 1, cand := k } ∧
    exec (.codeDrop k) s = .next { s with cur := s.cur + 1, cand := k }

/-- 30 R99, 44 R186 to R190: which outcome a matched key has, in terms of the CFG register's bits, and what it does beside the
shift step (R183). -/
def Obligations.CodeSelectionByConfiguration : Prop :=
  ∀ (s : State) (b : Bool) (x : Byte), s.phase = .decode → s.cur ≠ s.bitLen → memBit s.bytes s.cur = some b →
    codeLookup s.ct (s.cand ++ [b]) = some x →
    (s.cfg.getLsbD 16 = false → fetch s = .element (.codeEmit (s.cand ++ [b])) ∧
      exec (.codeEmit (s.cand ++ [b])) s = .next { s with cur := s.cur + 1, cand := [], out := s.out ++ [x] }) ∧
    (s.cfg.getLsbD 16 = true → s.cfg.getLsbD 17 = true → x.toNat = s.cfg.toNat % 256 →
      fetch s = .element (.codeTerm (s.cand ++ [b])) ∧
      exec (.codeTerm (s.cand ++ [b])) s = .next
        { s with cur := s.cur + 1, cand := [], out := s.out ++ [s.params.newline], termStop := true, phase := .done }) ∧
    (s.cfg.getLsbD 16 = true → ¬ (s.cfg.getLsbD 17 = true ∧ x.toNat = s.cfg.toNat % 256) →
      s.cfg.getLsbD 18 = true → x.toNat = s.cfg.toNat / 256 % 256 →
      fetch s = .element (.codeDrop (s.cand ++ [b])) ∧
      exec (.codeDrop (s.cand ++ [b])) s = .next { s with cur := s.cur + 1, cand := [] }) ∧
    (s.cfg.getLsbD 16 = true → ¬ (s.cfg.getLsbD 17 = true ∧ x.toNat = s.cfg.toNat % 256) →
      ¬ (s.cfg.getLsbD 18 = true ∧ x.toNat = s.cfg.toNat / 256 % 256) →
      fetch s = .element (.codeEmit (s.cand ++ [b])) ∧
      exec (.codeEmit (s.cand ++ [b])) s = .next { s with cur := s.cur + 1, cand := [], out := s.out ++ [x] })

/-- 44 R183: one message bit. Without a match the candidate grows; with one the CODE chosen by 30 R99 is performed, and the
cursor has moved by one and the candidate is empty. -/
def Obligations.ShiftStepTakesOneBit : Prop :=
  ∀ (s : State) (b : Bool), s.host = [] → s.phase = .decode → s.cur < s.bitLen → memBit s.bytes s.cur = some b →
    (s.cand ++ [b] ∉ codeKeys s.ct → step s = .next { s with cur := s.cur + 1, cand := s.cand ++ [b] }) ∧
    (∀ x, codeLookup s.ct (s.cand ++ [b]) = some x →
      step s = exec (classifyCode s.cfg x (s.cand ++ [b])) s ∧
      ∃ t, step s = .next t ∧ t.cur = s.cur + 1 ∧ t.cand = [] ∧
        t = { s with cur := t.cur, cand := t.cand, out := t.out, termStop := t.termStop, phase := t.phase })

/-- 44 R191, R192: EOS, and where it stands. -/
def Obligations.EosEndsTheMessage : Prop :=
  ∀ s : State,
    (s.cand = [] → exec .eos s = .next { s with phase := .done }) ∧
    (s.cand ≠ [] → exec .eos s = .next
      { s with err := .truncation, errPhase := s.phase, errPos := s.bitLen - s.cand.length, out := [], phase := .error }) ∧
    (s.phase = .decode → s.cur = s.bitLen → fetch s = .element .eos)

/-- 44 R193: from the PAD phase on, the steps compute `DecodeStream` on the message bits. -/
def Obligations.MessagePhaseIsDecodeStream : Prop :=
  ∀ s : State, s.host = [] → s.phase = .pad → Memory.wf s.bytes = true → s.teo ≤ s.bitLen → s.out = [] →
    s.err = .none → s.termStop = false →
    ∃ n u, n ≤ s.bitLen - s.teo + 2 ∧ runSteps n s = .next u ∧
      shows u (decodeStream (s.bits.drop (s.teo + (s.bitLen - s.teo) % 8)) s.ct s.cfg s.params.newline)

/-- 44 R188, 30 R102, 20 R67: nothing after the terminator's code is read: whatever bits follow, `DecodeStream` is the same;
and without a designated terminator no step sets TERMSTOP (44 R194). -/
def Obligations.BitsAfterTheTerminatorAreIgnored : Prop :=
  (∀ (bits more : Bits) (ct : CodeTable) (cfg : Word) (newline : Byte) (out : List Byte),
    decodeStream bits ct cfg newline = .ok out true → decodeStream (bits ++ more) ct cfg newline = .ok out true) ∧
  (∀ s t : State, step s = .next t → (s.cfg.getLsbD 16 = false ∨ s.cfg.getLsbD 17 = false) → s.termStop = false →
    t.termStop = false)

/-! ### Steps -/

/-- 45 R212, 30 R100: with no host move before it, the step executes the instruction the decoder reads at the cursor. -/
def Obligations.StepRunsTheDecodedInstruction : Prop :=
  ∀ (s : State) (i : Instr) (w rest : Bits), s.host = [] → decode s.decodeContext w = .instr i rest →
    (s.phase = .header → 8 ≤ s.bitLen → memSlice s.bytes 0 8 = some w → step s = exec i s) ∧
    (s.phase = .alphabet → s.cur < s.aend → memSlice s.bytes s.cur (s.cur + 8) = some w → step s = exec i s) ∧
    (s.phase = .tree → ∀ b, memBit s.bytes s.cur = some b → w = [b] → step s = exec i s) ∧
    (s.phase = .pad → w = [] → step s = exec i s) ∧
    (s.phase = .decode → s.cur = s.bitLen → w = [] → step s = exec i s) ∧
    (s.phase = .decode → s.cur ≠ s.bitLen → ∀ b, memBit s.bytes s.cur = some b → w = [b] → step s = exec i s)

/-- The model's choice of how the host's moves come in (log entry 2): a command is executed before the sequencer's next step;
a `wait` gives the sequencer one step. -/
def Obligations.StepTakesTheHostMoveFirst : Prop :=
  (∀ (s : State) (c : Command) (rest : List HostMove), s.host = .issue c :: rest →
    step s = exec c.toInstr { s with host := rest }) ∧
  (∀ (s : State) (rest : List HostMove), s.host = .wait :: rest →
    step s = mapNext (fun t => { t with host := rest }) (step { s with host := [] }))

/-- The model's choice (log entry 4): where the sequencer has no step (45 R210) and the host makes no move, nothing changes. -/
def Obligations.NothingHappensWhenIdle : Prop :=
  ∀ s : State, s.host = [] → (s.phase = .idle ∨ s.phase = .done ∨ s.phase = .error) → step s = .next s

/-- 45 R212, 93 section 1: nothing stops the machine; every instruction and every step answers a next state. -/
def Obligations.EveryInstructionAndStepAnswersNext : Prop :=
  (∀ (i : Instr) (s : State), ∃ t, exec i s = .next t) ∧ (∀ s : State, ∃ t, step s = .next t)

/-- 45 R211: a step that changes PHASE takes one of the table's arrows. -/
def Obligations.PhaseChangesTakeTheArrows : Prop :=
  ∀ s t : State, step s = .next t → t.phase ≠ s.phase → phaseArrow s.phase t.phase = true

/-- 70 R271: while an operation runs, no step but a RESET changes the input or CFG. -/
def Obligations.InputAndConfigurationStayDuringARun : Prop :=
  ∀ s t : State, step s = .next t → s.running = true → (∀ rest, s.host ≠ .issue .reset :: rest) →
    t.bytes = s.bytes ∧ t.cfg = s.cfg

/-- 60 R238, R239: a step that raises changes the error record, OUT and PHASE, and nothing else of the block. -/
def Obligations.ErrorEntryIsPrecise : Prop :=
  ∀ s t : State, step s = .next t → s.running = true → t.phase = .error →
    t.err ≠ .none ∧ t.out = [] ∧ t.errPhase = (if s.phase = .pad then .decode else s.phase) ∧
    t = { s with host := t.host, err := t.err, errPhase := t.errPhase, errPos := t.errPos, out := t.out, phase := t.phase }

/-- 20 R66, R68, 45 R221: the frame of the nine elements: the input, byte by byte, CFG, the parameters and the host's side
are as before, whatever the element and the state. -/
def Obligations.ElementsLeaveTheInput : Prop :=
  ∀ (i : Instr) (s t : State), i.isElement = true → exec i s = .next t →
    (∀ a, memRead t.bytes a = memRead s.bytes a) ∧ t.bytes = s.bytes ∧ t.cfg = s.cfg ∧ t.params = s.params ∧
    t.host = s.host ∧ t.reply = s.reply

/-- 40 R122 to R125, 45 R218: the frame of BIT, SLICE, UINT and RESULT: nothing of the block changes, but that BIT and
SLICE may raise (60 R238). The model's choices: where the answer is put (`reply`, log entry 3), and that BIT and SLICE on their
own raise in every phase, ERRPHASE being the phase at hand (log entry 14). -/
def Obligations.ReadsChangeNoState : Prop :=
  ∀ (i : Instr) (s t : State), i.isRead = true → exec i s = .next t →
    (∀ a, memRead t.bytes a = memRead s.bytes a) ∧
    (t = { s with reply := t.reply } ∨
      (i ≠ .result ∧ (∀ w, i ≠ .uint w) ∧
        t = { s with err := .outOfRange, errPhase := s.phase, errPos := t.errPos, out := [], phase := .error }))

/-- 20 R78: during an operation SYM grows only in ALPHABET, CT only in TREE, OUT only in DECODE; nothing is removed, but
that error entry empties OUT. -/
def Obligations.TablesGrowInTheirOwnPhase : Prop :=
  ∀ s t : State, step s = .next t → s.running = true → t.phase ≠ .idle →
    s.sym <+: t.sym ∧ s.ct <+: t.ct ∧ (t.phase ≠ .error → s.out <+: t.out) ∧
    (t.sym ≠ s.sym → s.phase = .alphabet) ∧ (t.ct ≠ s.ct → s.phase = .tree) ∧
    (t.phase ≠ .error → t.out ≠ s.out → s.phase = .decode)

/-- 10 R24: during an operation the cursor moves back only at the ALPHABET exit, and then to TSO. -/
def Obligations.CursorMovesBackOnlyAtTheExit : Prop :=
  ∀ s t : State, LayoutInv s → step s = .next t → s.running = true → t.phase ≠ .idle → t.cur < s.cur →
    s.phase = .alphabet ∧ t.phase = .tree ∧ t.cur = s.tso

/-- 44 R187: in unfiltered mode TERM, REM and their enables are not read: a sequencer step is the same for every such CFG. -/
def Obligations.UnfilteredModeIgnoresTheOtherFields : Prop :=
  ∀ (s : State) (c : Word), s.host = [] → s.cfg.getLsbD 16 = false → c.getLsbD 16 = false →
    step { s with cfg := c } = mapNext (fun t => { t with cfg := c }) (step s)

/-- 30 R95, R102, 20 R67: after the alphabet the only bit a step reads is the one at the cursor, and PAD reads none: two
inputs of the same length that agree there give the same step. -/
def Obligations.StepReadsOnlyTheBitAtTheCursor : Prop :=
  ∀ (s : State) (m : Memory), s.host = [] → (s.phase = .tree ∨ s.phase = .pad ∨ s.phase = .decode) →
    m.length = s.bytes.length → (s.phase ≠ .pad → memBit m s.cur = memBit s.bytes s.cur) →
    step { s with bytes := m } = mapNext (fun t => { t with bytes := m }) (step s)

/-! ### Invariants -/

/-- 10 R21, R41: every step keeps the input in its canonical form (the model's representation, log entry 7) and
CFG's reserved bits 0. -/
def Obligations.StepKeepsTheForm : Prop :=
  ∀ s t : State, FormInv s → step s = .next t → FormInv t

/-- 10 R23, R32(c), 20 R78, 45 R226: every step keeps the error record, OUT and TERMSTOP in agreement with PHASE. -/
def Obligations.StepKeepsTheRecord : Prop :=
  ∀ s t : State, RecordInv s → step s = .next t → RecordInv t

/-- 10 R24, 20 R65, 41 R146(a), 44 R181: every step keeps the regions and the cursor inside the input. -/
def Obligations.StepKeepsTheLayout : Prop :=
  ∀ s t : State, LayoutInv s → step s = .next t → LayoutInv t

/-- 10 R36, R38, 43 R168, 44 R185: every step keeps SYM without duplicates, the CodeTable and the pending paths the
root-to-leaf paths of one full binary tree, and the candidate a proper prefix of a key. -/
def Obligations.StepKeepsTheTables : Prop :=
  ∀ s t : State, TablesInv s → step s = .next t → TablesInv t

/-- The four invariants hold at reset. -/
def Obligations.ResetMeetsTheInvariants : Prop :=
  FormInv State.reset ∧ RecordInv State.reset ∧ LayoutInv State.reset ∧ TablesInv State.reset

/-- 43 R167, R168(c), 60 R233: no step raises INVALID_PREFIX_CODE. -/
def Obligations.InvalidPrefixCodeIsNeverRaised : Prop :=
  ∀ s t : State, TablesInv s → s.err ≠ .invalidPrefixCode → step s = .next t → t.err ≠ .invalidPrefixCode

/-- 43 R168(a), (b), (c), (d): a finished CodeTable has one key per leaf, bound to the symbols in order; no key is a prefix of
another; every bit string meets a key; and the tree has `2k - 1` bits. -/
def Obligations.FinishedTableIsAFullCode : Prop :=
  ∀ s : State, TablesInv s → s.phase = .pad ∨ s.phase = .decode →
    s.ct.length = s.leaf ∧ s.leaf = s.asize.toNat ∧ s.ct.map Prod.snd = s.sym.take s.leaf ∧ 1 ≤ s.leaf ∧
    s.teo - s.tso = 2 * s.leaf - 1 ∧
    (∀ k ∈ codeKeys s.ct, ∀ k' ∈ codeKeys s.ct, k ≠ k' → ¬ k <+: k') ∧
    (∀ w : Bits, ∃ k ∈ codeKeys s.ct, k <+: w ∨ w <+: k)

/-- 44 R195, 43 R168(e), (f): keys have at most 255 bits, and a pending candidate at most 254. -/
def Obligations.CandidateIsShort : Prop :=
  ∀ s : State, TablesInv s → s.phase = .decode →
    s.cand.length ≤ 254 ∧ (∀ k ∈ codeKeys s.ct, 1 ≤ k.length ∧ k.length ≤ 254) ∧
    ∃ k ∈ codeKeys s.ct, s.cand.length + 1 ≤ k.length

/-- 60 R231, R236: which kinds a sequencer step can raise in which phase: OUT_OF_RANGE in HEADER and TREE only, LEAF_MISMATCH in
TREE, DEGENERATE_TREE at DECODE entry, TRUNCATION in DECODE. -/
def Obligations.ErrorKindsByPhase : Prop :=
  ∀ s t : State, FormInv s → LayoutInv s → TablesInv s → step s = .next t → s.running = true → t.phase = .error →
    (s.phase = .header ∧ t.err = .outOfRange) ∨ (s.phase = .tree ∧ (t.err = .outOfRange ∨ t.err = .leafMismatch)) ∨
    (s.phase = .pad ∧ t.err = .degenerateTree) ∨ (s.phase = .decode ∧ t.err = .truncation)

/-! ### Whole operations -/

/-- 45 R222: from START on, with no further host move, DONE or ERROR is reached within `3L + 5` steps. -/
def Obligations.EveryOperationEnds : Prop :=
  ∀ s t : State, s.host = [] → s.running = false → Memory.wf s.bytes = true → exec .start s = .next t →
    ∃ n u, n ≤ 3 * s.bitLen + 5 ∧ runSteps n t = .next u ∧ (u.phase = .done ∨ u.phase = .error)

/-- 45 R212, R213: the machine computes `Decode`: for every input, CFG and parameters, the operation ends as `Decode` says. -/
def Obligations.MachineComputesDecode : Prop :=
  ∀ (bs : List Byte) (s t : State), s.host = [] → s.running = false → s.bytes = memOfBytes bs → exec .start s = .next t →
    ∃ n u, runSteps n t = .next u ∧ shows u (decodeContainer bs s.cfg s.params)

/-- 41 R146(c): no operation on a container whose first byte is 0 reaches DONE, whatever the configuration, when
`AlphabetEnd` has its default body. -/
def Obligations.AlphabetOfSizeZeroNeverDecodes : Prop :=
  ∀ (bs : List Byte) (cfg : Word) (newline : Byte),
    ∃ kind, decodeContainer (0 :: bs) cfg { alphabetEnd := .tso, newline := newline } = .error kind

/-! ### Encoding -/

/-- 30 R92 to R97: decoding what the encoder writes gives the instruction back, with every operand at every value. -/
def Obligations.DecodeOfEncode : Prop :=
  ∀ (c : DecodeContext) (i : Instr) (w rest : Bits), i.wellFormed = true → encode c.padLen i = some w → selects c i rest →
    decode c (w ++ rest) = .instr i rest

/-- 30 R91 to R97: where the bits have one meaning, encoding what was decoded gives the bits back (the bits of a PAD are
don't-care, R95). -/
def Obligations.EncodeOfDecode : Prop :=
  ∀ (c : DecodeContext) (i : Instr) (bits rest : Bits), c.cand = [] → c.phase ≠ .pad → decode c bits = .instr i rest →
    ∃ w, encode c.padLen i = some w ∧ bits = w ++ rest

/-- 30 R92 to R94, R108: words of the worked example decode to the elements they stand for. -/
def Obligations.WorkedExampleWordsDecode : Prop :=
  decodeBytes (tableContext .header) [0x03] = .instr (.size 3) [] ∧
  decodeBytes (tableContext .alphabet) [0x61] = .instr (.sym 0x61) [] ∧
  decode (tableContext .tree) [false, true, false, true, true] = .instr .node [true, false, true, true] ∧
  decode (tableContext .tree) [true, false, true, true] = .instr .leaf [false, true, true] ∧
  decode { tableContext .decode with ct := [([false], 0x61), ([true, false], 0x62), ([true, true], 0x63)] }
    [true, false, false, true, true] = .instr (.codeEmit [true, false]) [false, true, true]
end

