-- ==== Sys2Proof/Laws/State.lean ====
section
/-!
SUPPORT. What every named update of the state writes in each field: one lemma per field per update, so that no proof
unfolds a record update.
-/
namespace Sys2Proof.Machine

/-! ### `raiseIn` -/

@[simp] theorem raiseIn_bytes (ph : Phase) (k : ErrKind) (pos : Nat) (s : State) : (raiseIn ph k pos s).bytes = s.bytes := rfl
@[simp] theorem raiseIn_phase (ph : Phase) (k : ErrKind) (pos : Nat) (s : State) : (raiseIn ph k pos s).phase = .error := rfl
@[simp] theorem raiseIn_err (ph : Phase) (k : ErrKind) (pos : Nat) (s : State) : (raiseIn ph k pos s).err = k := rfl
@[simp] theorem raiseIn_errPhase (ph : Phase) (k : ErrKind) (pos : Nat) (s : State) : (raiseIn ph k pos s).errPhase = ph := rfl
@[simp] theorem raiseIn_errPos (ph : Phase) (k : ErrKind) (pos : Nat) (s : State) : (raiseIn ph k pos s).errPos = pos := rfl
@[simp] theorem raiseIn_cur (ph : Phase) (k : ErrKind) (pos : Nat) (s : State) : (raiseIn ph k pos s).cur = s.cur := rfl
@[simp] theorem raiseIn_asize (ph : Phase) (k : ErrKind) (pos : Nat) (s : State) : (raiseIn ph k pos s).asize = s.asize := rfl
@[simp] theorem raiseIn_tso (ph : Phase) (k : ErrKind) (pos : Nat) (s : State) : (raiseIn ph k pos s).tso = s.tso := rfl
@[simp] theorem raiseIn_aend (ph : Phase) (k : ErrKind) (pos : Nat) (s : State) : (raiseIn ph k pos s).aend = s.aend := rfl
@[simp] theorem raiseIn_sym (ph : Phase) (k : ErrKind) (pos : Nat) (s : State) : (raiseIn ph k pos s).sym = s.sym := rfl
@[simp] theorem raiseIn_leaf (ph : Phase) (k : ErrKind) (pos : Nat) (s : State) : (raiseIn ph k pos s).leaf = s.leaf := rfl
@[simp] theorem raiseIn_path (ph : Phase) (k : ErrKind) (pos : Nat) (s : State) : (raiseIn ph k pos s).path = s.path := rfl
@[simp] theorem raiseIn_stk (ph : Phase) (k : ErrKind) (pos : Nat) (s : State) : (raiseIn ph k pos s).stk = s.stk := rfl
@[simp] theorem raiseIn_ct (ph : Phase) (k : ErrKind) (pos : Nat) (s : State) : (raiseIn ph k pos s).ct = s.ct := rfl
@[simp] theorem raiseIn_teo (ph : Phase) (k : ErrKind) (pos : Nat) (s : State) : (raiseIn ph k pos s).teo = s.teo := rfl
@[simp] theorem raiseIn_padLen (ph : Phase) (k : ErrKind) (pos : Nat) (s : State) : (raiseIn ph k pos s).padLen = s.padLen := rfl
@[simp] theorem raiseIn_mso (ph : Phase) (k : ErrKind) (pos : Nat) (s : State) : (raiseIn ph k pos s).mso = s.mso := rfl
@[simp] theorem raiseIn_cand (ph : Phase) (k : ErrKind) (pos : Nat) (s : State) : (raiseIn ph k pos s).cand = s.cand := rfl
@[simp] theorem raiseIn_out (ph : Phase) (k : ErrKind) (pos : Nat) (s : State) : (raiseIn ph k pos s).out = [] := rfl
@[simp] theorem raiseIn_termStop (ph : Phase) (k : ErrKind) (pos : Nat) (s : State) : (raiseIn ph k pos s).termStop = s.termStop := rfl
@[simp] theorem raiseIn_cfg (ph : Phase) (k : ErrKind) (pos : Nat) (s : State) : (raiseIn ph k pos s).cfg = s.cfg := rfl
@[simp] theorem raiseIn_host (ph : Phase) (k : ErrKind) (pos : Nat) (s : State) : (raiseIn ph k pos s).host = s.host := rfl
@[simp] theorem raiseIn_reply (ph : Phase) (k : ErrKind) (pos : Nat) (s : State) : (raiseIn ph k pos s).reply = s.reply := rfl
@[simp] theorem raiseIn_params (ph : Phase) (k : ErrKind) (pos : Nat) (s : State) : (raiseIn ph k pos s).params = s.params := rfl

/-! ### `raise` -/

@[simp] theorem raise_bytes (k : ErrKind) (pos : Nat) (s : State) : (raise k pos s).bytes = s.bytes := rfl
@[simp] theorem raise_phase (k : ErrKind) (pos : Nat) (s : State) : (raise k pos s).phase = .error := rfl
@[simp] theorem raise_err (k : ErrKind) (pos : Nat) (s : State) : (raise k pos s).err = k := rfl
@[simp] theorem raise_errPhase (k : ErrKind) (pos : Nat) (s : State) : (raise k pos s).errPhase = s.phase := rfl
@[simp] theorem raise_errPos (k : ErrKind) (pos : Nat) (s : State) : (raise k pos s).errPos = pos := rfl
@[simp] theorem raise_cur (k : ErrKind) (pos : Nat) (s : State) : (raise k pos s).cur = s.cur := rfl
@[simp] theorem raise_asize (k : ErrKind) (pos : Nat) (s : State) : (raise k pos s).asize = s.asize := rfl
@[simp] theorem raise_tso (k : ErrKind) (pos : Nat) (s : State) : (raise k pos s).tso = s.tso := rfl
@[simp] theorem raise_aend (k : ErrKind) (pos : Nat) (s : State) : (raise k pos s).aend = s.aend := rfl
@[simp] theorem raise_sym (k : ErrKind) (pos : Nat) (s : State) : (raise k pos s).sym = s.sym := rfl
@[simp] theorem raise_leaf (k : ErrKind) (pos : Nat) (s : State) : (raise k pos s).leaf = s.leaf := rfl
@[simp] theorem raise_path (k : ErrKind) (pos : Nat) (s : State) : (raise k pos s).path = s.path := rfl
@[simp] theorem raise_stk (k : ErrKind) (pos : Nat) (s : State) : (raise k pos s).stk = s.stk := rfl
@[simp] theorem raise_ct (k : ErrKind) (pos : Nat) (s : State) : (raise k pos s).ct = s.ct := rfl
@[simp] theorem raise_teo (k : ErrKind) (pos : Nat) (s : State) : (raise k pos s).teo = s.teo := rfl
@[simp] theorem raise_padLen (k : ErrKind) (pos : Nat) (s : State) : (raise k pos s).padLen = s.padLen := rfl
@[simp] theorem raise_mso (k : ErrKind) (pos : Nat) (s : State) : (raise k pos s).mso = s.mso := rfl
@[simp] theorem raise_cand (k : ErrKind) (pos : Nat) (s : State) : (raise k pos s).cand = s.cand := rfl
@[simp] theorem raise_out (k : ErrKind) (pos : Nat) (s : State) : (raise k pos s).out = [] := rfl
@[simp] theorem raise_termStop (k : ErrKind) (pos : Nat) (s : State) : (raise k pos s).termStop = s.termStop := rfl
@[simp] theorem raise_cfg (k : ErrKind) (pos : Nat) (s : State) : (raise k pos s).cfg = s.cfg := rfl
@[simp] theorem raise_host (k : ErrKind) (pos : Nat) (s : State) : (raise k pos s).host = s.host := rfl
@[simp] theorem raise_reply (k : ErrKind) (pos : Nat) (s : State) : (raise k pos s).reply = s.reply := rfl
@[simp] theorem raise_params (k : ErrKind) (pos : Nat) (s : State) : (raise k pos s).params = s.params := rfl

/-! ### `resetBlock` -/

@[simp] theorem resetBlock_bytes (s : State) : (resetBlock s).bytes = [] := rfl
@[simp] theorem resetBlock_phase (s : State) : (resetBlock s).phase = .idle := rfl
@[simp] theorem resetBlock_err (s : State) : (resetBlock s).err = .none := rfl
@[simp] theorem resetBlock_errPhase (s : State) : (resetBlock s).errPhase = .idle := rfl
@[simp] theorem resetBlock_errPos (s : State) : (resetBlock s).errPos = 0 := rfl
@[simp] theorem resetBlock_cur (s : State) : (resetBlock s).cur = 0 := rfl
@[simp] theorem resetBlock_asize (s : State) : (resetBlock s).asize = 0 := rfl
@[simp] theorem resetBlock_tso (s : State) : (resetBlock s).tso = 0 := rfl
@[simp] theorem resetBlock_aend (s : State) : (resetBlock s).aend = 0 := rfl
@[simp] theorem resetBlock_sym (s : State) : (resetBlock s).sym = [] := rfl
@[simp] theorem resetBlock_leaf (s : State) : (resetBlock s).leaf = 0 := rfl
@[simp] theorem resetBlock_path (s : State) : (resetBlock s).path = [] := rfl
@[simp] theorem resetBlock_stk (s : State) : (resetBlock s).stk = [] := rfl
@[simp] theorem resetBlock_ct (s : State) : (resetBlock s).ct = [] := rfl
@[simp] theorem resetBlock_teo (s : State) : (resetBlock s).teo = 0 := rfl
@[simp] theorem resetBlock_padLen (s : State) : (resetBlock s).padLen = 0 := rfl
@[simp] theorem resetBlock_mso (s : State) : (resetBlock s).mso = 0 := rfl
@[simp] theorem resetBlock_cand (s : State) : (resetBlock s).cand = [] := rfl
@[simp] theorem resetBlock_out (s : State) : (resetBlock s).out = [] := rfl
@[simp] theorem resetBlock_termStop (s : State) : (resetBlock s).termStop = false := rfl
@[simp] theorem resetBlock_cfg (s : State) : (resetBlock s).cfg = 0 := rfl
@[simp] theorem resetBlock_host (s : State) : (resetBlock s).host = s.host := rfl
@[simp] theorem resetBlock_reply (s : State) : (resetBlock s).reply = s.reply := rfl
@[simp] theorem resetBlock_params (s : State) : (resetBlock s).params = s.params := rfl

/-! ### `startOperation` -/

@[simp] theorem startOperation_bytes (s : State) : (startOperation s).bytes = s.bytes := rfl
@[simp] theorem startOperation_phase (s : State) : (startOperation s).phase = .header := rfl
@[simp] theorem startOperation_err (s : State) : (startOperation s).err = .none := rfl
@[simp] theorem startOperation_errPhase (s : State) : (startOperation s).errPhase = .idle := rfl
@[simp] theorem startOperation_errPos (s : State) : (startOperation s).errPos = 0 := rfl
@[simp] theorem startOperation_cur (s : State) : (startOperation s).cur = 0 := rfl
@[simp] theorem startOperation_asize (s : State) : (startOperation s).asize = 0 := rfl
@[simp] theorem startOperation_tso (s : State) : (startOperation s).tso = 0 := rfl
@[simp] theorem startOperation_aend (s : State) : (startOperation s).aend = 0 := rfl
@[simp] theorem startOperation_sym (s : State) : (startOperation s).sym = [] := rfl
@[simp] theorem startOperation_leaf (s : State) : (startOperation s).leaf = 0 := rfl
@[simp] theorem startOperation_path (s : State) : (startOperation s).path = [] := rfl
@[simp] theorem startOperation_stk (s : State) : (startOperation s).stk = [] := rfl
@[simp] theorem startOperation_ct (s : State) : (startOperation s).ct = [] := rfl
@[simp] theorem startOperation_teo (s : State) : (startOperation s).teo = 0 := rfl
@[simp] theorem startOperation_padLen (s : State) : (startOperation s).padLen = 0 := rfl
@[simp] theorem startOperation_mso (s : State) : (startOperation s).mso = 0 := rfl
@[simp] theorem startOperation_cand (s : State) : (startOperation s).cand = [] := rfl
@[simp] theorem startOperation_out (s : State) : (startOperation s).out = [] := rfl
@[simp] theorem startOperation_termStop (s : State) : (startOperation s).termStop = false := rfl
@[simp] theorem startOperation_cfg (s : State) : (startOperation s).cfg = s.cfg := rfl
@[simp] theorem startOperation_host (s : State) : (startOperation s).host = s.host := rfl
@[simp] theorem startOperation_reply (s : State) : (startOperation s).reply = s.reply := rfl
@[simp] theorem startOperation_params (s : State) : (startOperation s).params = s.params := rfl

/-! ### `setReply` -/

@[simp] theorem setReply_bytes (r : Reply) (s : State) : (setReply r s).bytes = s.bytes := rfl
@[simp] theorem setReply_phase (r : Reply) (s : State) : (setReply r s).phase = s.phase := rfl
@[simp] theorem setReply_err (r : Reply) (s : State) : (setReply r s).err = s.err := rfl
@[simp] theorem setReply_errPhase (r : Reply) (s : State) : (setReply r s).errPhase = s.errPhase := rfl
@[simp] theorem setReply_errPos (r : Reply) (s : State) : (setReply r s).errPos = s.errPos := rfl
@[simp] theorem setReply_cur (r : Reply) (s : State) : (setReply r s).cur = s.cur := rfl
@[simp] theorem setReply_asize (r : Reply) (s : State) : (setReply r s).asize = s.asize := rfl
@[simp] theorem setReply_tso (r : Reply) (s : State) : (setReply r s).tso = s.tso := rfl
@[simp] theorem setReply_aend (r : Reply) (s : State) : (setReply r s).aend = s.aend := rfl
@[simp] theorem setReply_sym (r : Reply) (s : State) : (setReply r s).sym = s.sym := rfl
@[simp] theorem setReply_leaf (r : Reply) (s : State) : (setReply r s).leaf = s.leaf := rfl
@[simp] theorem setReply_path (r : Reply) (s : State) : (setReply r s).path = s.path := rfl
@[simp] theorem setReply_stk (r : Reply) (s : State) : (setReply r s).stk = s.stk := rfl
@[simp] theorem setReply_ct (r : Reply) (s : State) : (setReply r s).ct = s.ct := rfl
@[simp] theorem setReply_teo (r : Reply) (s : State) : (setReply r s).teo = s.teo := rfl
@[simp] theorem setReply_padLen (r : Reply) (s : State) : (setReply r s).padLen = s.padLen := rfl
@[simp] theorem setReply_mso (r : Reply) (s : State) : (setReply r s).mso = s.mso := rfl
@[simp] theorem setReply_cand (r : Reply) (s : State) : (setReply r s).cand = s.cand := rfl
@[simp] theorem setReply_out (r : Reply) (s : State) : (setReply r s).out = s.out := rfl
@[simp] theorem setReply_termStop (r : Reply) (s : State) : (setReply r s).termStop = s.termStop := rfl
@[simp] theorem setReply_cfg (r : Reply) (s : State) : (setReply r s).cfg = s.cfg := rfl
@[simp] theorem setReply_host (r : Reply) (s : State) : (setReply r s).host = s.host := rfl
@[simp] theorem setReply_reply (r : Reply) (s : State) : (setReply r s).reply = r := rfl
@[simp] theorem setReply_params (r : Reply) (s : State) : (setReply r s).params = s.params := rfl

/-! ### `sizeAccept` -/

@[simp] theorem sizeAccept_bytes (n : Byte) (s : State) : (sizeAccept n s).bytes = s.bytes := rfl
@[simp] theorem sizeAccept_phase (n : Byte) (s : State) : (sizeAccept n s).phase = .alphabet := rfl
@[simp] theorem sizeAccept_err (n : Byte) (s : State) : (sizeAccept n s).err = s.err := rfl
@[simp] theorem sizeAccept_errPhase (n : Byte) (s : State) : (sizeAccept n s).errPhase = s.errPhase := rfl
@[simp] theorem sizeAccept_errPos (n : Byte) (s : State) : (sizeAccept n s).errPos = s.errPos := rfl
@[simp] theorem sizeAccept_cur (n : Byte) (s : State) : (sizeAccept n s).cur = 8 := rfl
@[simp] theorem sizeAccept_asize (n : Byte) (s : State) : (sizeAccept n s).asize = n := rfl
@[simp] theorem sizeAccept_tso (n : Byte) (s : State) : (sizeAccept n s).tso = treeStart n := rfl
@[simp] theorem sizeAccept_aend (n : Byte) (s : State) : (sizeAccept n s).aend = alphabetEnd s.params.alphabetEnd n s.bitLen := rfl
@[simp] theorem sizeAccept_sym (n : Byte) (s : State) : (sizeAccept n s).sym = s.sym := rfl
@[simp] theorem sizeAccept_leaf (n : Byte) (s : State) : (sizeAccept n s).leaf = s.leaf := rfl
@[simp] theorem sizeAccept_path (n : Byte) (s : State) : (sizeAccept n s).path = s.path := rfl
@[simp] theorem sizeAccept_stk (n : Byte) (s : State) : (sizeAccept n s).stk = s.stk := rfl
@[simp] theorem sizeAccept_ct (n : Byte) (s : State) : (sizeAccept n s).ct = s.ct := rfl
@[simp] theorem sizeAccept_teo (n : Byte) (s : State) : (sizeAccept n s).teo = s.teo := rfl
@[simp] theorem sizeAccept_padLen (n : Byte) (s : State) : (sizeAccept n s).padLen = s.padLen := rfl
@[simp] theorem sizeAccept_mso (n : Byte) (s : State) : (sizeAccept n s).mso = s.mso := rfl
@[simp] theorem sizeAccept_cand (n : Byte) (s : State) : (sizeAccept n s).cand = s.cand := rfl
@[simp] theorem sizeAccept_out (n : Byte) (s : State) : (sizeAccept n s).out = s.out := rfl
@[simp] theorem sizeAccept_termStop (n : Byte) (s : State) : (sizeAccept n s).termStop = s.termStop := rfl
@[simp] theorem sizeAccept_cfg (n : Byte) (s : State) : (sizeAccept n s).cfg = s.cfg := rfl
@[simp] theorem sizeAccept_host (n : Byte) (s : State) : (sizeAccept n s).host = s.host := rfl
@[simp] theorem sizeAccept_reply (n : Byte) (s : State) : (sizeAccept n s).reply = s.reply := rfl
@[simp] theorem sizeAccept_params (n : Byte) (s : State) : (sizeAccept n s).params = s.params := rfl

/-! ### `alphabetExit` -/

@[simp] theorem alphabetExit_bytes (s : State) : (alphabetExit s).bytes = s.bytes := rfl
@[simp] theorem alphabetExit_phase (s : State) : (alphabetExit s).phase = .tree := rfl
@[simp] theorem alphabetExit_err (s : State) : (alphabetExit s).err = s.err := rfl
@[simp] theorem alphabetExit_errPhase (s : State) : (alphabetExit s).errPhase = s.errPhase := rfl
@[simp] theorem alphabetExit_errPos (s : State) : (alphabetExit s).errPos = s.errPos := rfl
@[simp] theorem alphabetExit_cur (s : State) : (alphabetExit s).cur = s.tso := rfl
@[simp] theorem alphabetExit_asize (s : State) : (alphabetExit s).asize = s.asize := rfl
@[simp] theorem alphabetExit_tso (s : State) : (alphabetExit s).tso = s.tso := rfl
@[simp] theorem alphabetExit_aend (s : State) : (alphabetExit s).aend = s.aend := rfl
@[simp] theorem alphabetExit_sym (s : State) : (alphabetExit s).sym = s.sym := rfl
@[simp] theorem alphabetExit_leaf (s : State) : (alphabetExit s).leaf = 0 := rfl
@[simp] theorem alphabetExit_path (s : State) : (alphabetExit s).path = [] := rfl
@[simp] theorem alphabetExit_stk (s : State) : (alphabetExit s).stk = [] := rfl
@[simp] theorem alphabetExit_ct (s : State) : (alphabetExit s).ct = s.ct := rfl
@[simp] theorem alphabetExit_teo (s : State) : (alphabetExit s).teo = s.teo := rfl
@[simp] theorem alphabetExit_padLen (s : State) : (alphabetExit s).padLen = s.padLen := rfl
@[simp] theorem alphabetExit_mso (s : State) : (alphabetExit s).mso = s.mso := rfl
@[simp] theorem alphabetExit_cand (s : State) : (alphabetExit s).cand = s.cand := rfl
@[simp] theorem alphabetExit_out (s : State) : (alphabetExit s).out = s.out := rfl
@[simp] theorem alphabetExit_termStop (s : State) : (alphabetExit s).termStop = s.termStop := rfl
@[simp] theorem alphabetExit_cfg (s : State) : (alphabetExit s).cfg = s.cfg := rfl
@[simp] theorem alphabetExit_host (s : State) : (alphabetExit s).host = s.host := rfl
@[simp] theorem alphabetExit_reply (s : State) : (alphabetExit s).reply = s.reply := rfl
@[simp] theorem alphabetExit_params (s : State) : (alphabetExit s).params = s.params := rfl

/-! ### `leafRecord` -/

@[simp] theorem leafRecord_bytes (x : Byte) (s : State) : (leafRecord x s).bytes = s.bytes := rfl
@[simp] theorem leafRecord_phase (x : Byte) (s : State) : (leafRecord x s).phase = s.phase := rfl
@[simp] theorem leafRecord_err (x : Byte) (s : State) : (leafRecord x s).err = s.err := rfl
@[simp] theorem leafRecord_errPhase (x : Byte) (s : State) : (leafRecord x s).errPhase = s.errPhase := rfl
@[simp] theorem leafRecord_errPos (x : Byte) (s : State) : (leafRecord x s).errPos = s.errPos := rfl
@[simp] theorem leafRecord_cur (x : Byte) (s : State) : (leafRecord x s).cur = s.cur + 1 := rfl
@[simp] theorem leafRecord_asize (x : Byte) (s : State) : (leafRecord x s).asize = s.asize := rfl
@[simp] theorem leafRecord_tso (x : Byte) (s : State) : (leafRecord x s).tso = s.tso := rfl
@[simp] theorem leafRecord_aend (x : Byte) (s : State) : (leafRecord x s).aend = s.aend := rfl
@[simp] theorem leafRecord_sym (x : Byte) (s : State) : (leafRecord x s).sym = s.sym := rfl
@[simp] theorem leafRecord_leaf (x : Byte) (s : State) : (leafRecord x s).leaf = s.leaf + 1 := rfl
@[simp] theorem leafRecord_path (x : Byte) (s : State) : (leafRecord x s).path = s.path := rfl
@[simp] theorem leafRecord_stk (x : Byte) (s : State) : (leafRecord x s).stk = s.stk := rfl
@[simp] theorem leafRecord_ct (x : Byte) (s : State) : (leafRecord x s).ct = codeInsert s.ct s.path x := rfl
@[simp] theorem leafRecord_teo (x : Byte) (s : State) : (leafRecord x s).teo = s.teo := rfl
@[simp] theorem leafRecord_padLen (x : Byte) (s : State) : (leafRecord x s).padLen = s.padLen := rfl
@[simp] theorem leafRecord_mso (x : Byte) (s : State) : (leafRecord x s).mso = s.mso := rfl
@[simp] theorem leafRecord_cand (x : Byte) (s : State) : (leafRecord x s).cand = s.cand := rfl
@[simp] theorem leafRecord_out (x : Byte) (s : State) : (leafRecord x s).out = s.out := rfl
@[simp] theorem leafRecord_termStop (x : Byte) (s : State) : (leafRecord x s).termStop = s.termStop := rfl
@[simp] theorem leafRecord_cfg (x : Byte) (s : State) : (leafRecord x s).cfg = s.cfg := rfl
@[simp] theorem leafRecord_host (x : Byte) (s : State) : (leafRecord x s).host = s.host := rfl
@[simp] theorem leafRecord_reply (x : Byte) (s : State) : (leafRecord x s).reply = s.reply := rfl
@[simp] theorem leafRecord_params (x : Byte) (s : State) : (leafRecord x s).params = s.params := rfl

/-! ### `shiftPending` -/

@[simp] theorem shiftPending_bytes (c : Bits) (s : State) : (shiftPending c s).bytes = s.bytes := rfl
@[simp] theorem shiftPending_phase (c : Bits) (s : State) : (shiftPending c s).phase = s.phase := rfl
@[simp] theorem shiftPending_err (c : Bits) (s : State) : (shiftPending c s).err = s.err := rfl
@[simp] theorem shiftPending_errPhase (c : Bits) (s : State) : (shiftPending c s).errPhase = s.errPhase := rfl
@[simp] theorem shiftPending_errPos (c : Bits) (s : State) : (shiftPending c s).errPos = s.errPos := rfl
@[simp] theorem shiftPending_cur (c : Bits) (s : State) : (shiftPending c s).cur = s.cur + 1 := rfl
@[simp] theorem shiftPending_asize (c : Bits) (s : State) : (shiftPending c s).asize = s.asize := rfl
@[simp] theorem shiftPending_tso (c : Bits) (s : State) : (shiftPending c s).tso = s.tso := rfl
@[simp] theorem shiftPending_aend (c : Bits) (s : State) : (shiftPending c s).aend = s.aend := rfl
@[simp] theorem shiftPending_sym (c : Bits) (s : State) : (shiftPending c s).sym = s.sym := rfl
@[simp] theorem shiftPending_leaf (c : Bits) (s : State) : (shiftPending c s).leaf = s.leaf := rfl
@[simp] theorem shiftPending_path (c : Bits) (s : State) : (shiftPending c s).path = s.path := rfl
@[simp] theorem shiftPending_stk (c : Bits) (s : State) : (shiftPending c s).stk = s.stk := rfl
@[simp] theorem shiftPending_ct (c : Bits) (s : State) : (shiftPending c s).ct = s.ct := rfl
@[simp] theorem shiftPending_teo (c : Bits) (s : State) : (shiftPending c s).teo = s.teo := rfl
@[simp] theorem shiftPending_padLen (c : Bits) (s : State) : (shiftPending c s).padLen = s.padLen := rfl
@[simp] theorem shiftPending_mso (c : Bits) (s : State) : (shiftPending c s).mso = s.mso := rfl
@[simp] theorem shiftPending_cand (c : Bits) (s : State) : (shiftPending c s).cand = c := rfl
@[simp] theorem shiftPending_out (c : Bits) (s : State) : (shiftPending c s).out = s.out := rfl
@[simp] theorem shiftPending_termStop (c : Bits) (s : State) : (shiftPending c s).termStop = s.termStop := rfl
@[simp] theorem shiftPending_cfg (c : Bits) (s : State) : (shiftPending c s).cfg = s.cfg := rfl
@[simp] theorem shiftPending_host (c : Bits) (s : State) : (shiftPending c s).host = s.host := rfl
@[simp] theorem shiftPending_reply (c : Bits) (s : State) : (shiftPending c s).reply = s.reply := rfl
@[simp] theorem shiftPending_params (c : Bits) (s : State) : (shiftPending c s).params = s.params := rfl

/-! ### `shiftMatched` -/

@[simp] theorem shiftMatched_bytes (s : State) : (shiftMatched s).bytes = s.bytes := rfl
@[simp] theorem shiftMatched_phase (s : State) : (shiftMatched s).phase = s.phase := rfl
@[simp] theorem shiftMatched_err (s : State) : (shiftMatched s).err = s.err := rfl
@[simp] theorem shiftMatched_errPhase (s : State) : (shiftMatched s).errPhase = s.errPhase := rfl
@[simp] theorem shiftMatched_errPos (s : State) : (shiftMatched s).errPos = s.errPos := rfl
@[simp] theorem shiftMatched_cur (s : State) : (shiftMatched s).cur = s.cur + 1 := rfl
@[simp] theorem shiftMatched_asize (s : State) : (shiftMatched s).asize = s.asize := rfl
@[simp] theorem shiftMatched_tso (s : State) : (shiftMatched s).tso = s.tso := rfl
@[simp] theorem shiftMatched_aend (s : State) : (shiftMatched s).aend = s.aend := rfl
@[simp] theorem shiftMatched_sym (s : State) : (shiftMatched s).sym = s.sym := rfl
@[simp] theorem shiftMatched_leaf (s : State) : (shiftMatched s).leaf = s.leaf := rfl
@[simp] theorem shiftMatched_path (s : State) : (shiftMatched s).path = s.path := rfl
@[simp] theorem shiftMatched_stk (s : State) : (shiftMatched s).stk = s.stk := rfl
@[simp] theorem shiftMatched_ct (s : State) : (shiftMatched s).ct = s.ct := rfl
@[simp] theorem shiftMatched_teo (s : State) : (shiftMatched s).teo = s.teo := rfl
@[simp] theorem shiftMatched_padLen (s : State) : (shiftMatched s).padLen = s.padLen := rfl
@[simp] theorem shiftMatched_mso (s : State) : (shiftMatched s).mso = s.mso := rfl
@[simp] theorem shiftMatched_cand (s : State) : (shiftMatched s).cand = [] := rfl
@[simp] theorem shiftMatched_out (s : State) : (shiftMatched s).out = s.out := rfl
@[simp] theorem shiftMatched_termStop (s : State) : (shiftMatched s).termStop = s.termStop := rfl
@[simp] theorem shiftMatched_cfg (s : State) : (shiftMatched s).cfg = s.cfg := rfl
@[simp] theorem shiftMatched_host (s : State) : (shiftMatched s).host = s.host := rfl
@[simp] theorem shiftMatched_reply (s : State) : (shiftMatched s).reply = s.reply := rfl
@[simp] theorem shiftMatched_params (s : State) : (shiftMatched s).params = s.params := rfl

/-! ### `Memory.wf` and `running` only read one field -/

@[simp] theorem running_raise (k : ErrKind) (pos : Nat) (s : State) : (raise k pos s).running = false := rfl
@[simp] theorem running_raiseIn (ph : Phase) (k : ErrKind) (pos : Nat) (s : State) :
    (raiseIn ph k pos s).running = false := rfl
@[simp] theorem running_resetBlock (s : State) : (resetBlock s).running = false := rfl
@[simp] theorem running_startOperation (s : State) : (startOperation s).running = true := rfl

end Sys2Proof.Machine
end

