-- ==== Sys2Proof/Laws/Ops.lean ====
section
/-!
SUPPORT. One spec lemma for each shared operation: the memory, the tables, the decoder's pieces.
-/
namespace Sys2Proof.Machine

/-! ### Memory -/

theorem memOfBytesFrom_addresses (a : Nat) (bs : List Byte) :
    (memOfBytesFrom a bs).map Prod.fst = List.range' a bs.length := by
  induction bs generalizing a with
  | nil => rfl
  | cons b bs ih => simp [memOfBytesFrom, ih, List.range'_succ]

@[simp] theorem memOfBytesFrom_length (a : Nat) (bs : List Byte) : (memOfBytesFrom a bs).length = bs.length := by
  induction bs generalizing a with
  | nil => rfl
  | cons b bs ih => simp [memOfBytesFrom, ih]

@[simp] theorem memOfBytes_length (bs : List Byte) : (memOfBytes bs).length = bs.length :=
  memOfBytesFrom_length 0 bs

/-- LOAD's memory is in canonical form. -/
theorem memOfBytes_wf (bs : List Byte) : Memory.wf (memOfBytes bs) = true := by
  simp [Memory.wf, memOfBytes, memOfBytesFrom_addresses, List.range_eq_range']

theorem memOfBytesFrom_values (a : Nat) (bs : List Byte) : (memOfBytesFrom a bs).map Prod.snd = bs := by
  induction bs generalizing a with
  | nil => rfl
  | cons b bs ih => simp [memOfBytesFrom, ih]

@[simp] theorem memOfBytes_values (bs : List Byte) : (memOfBytes bs).map Prod.snd = bs :=
  memOfBytesFrom_values 0 bs

/-- A list of cells whose addresses count up from `a` is the memory of its bytes. -/
theorem eq_memOfBytesFrom (m : Memory) (a : Nat) (h : m.map Prod.fst = List.range' a m.length) :
    m = memOfBytesFrom a (m.map Prod.snd) := by
  induction m generalizing a with
  | nil => rfl
  | cons e m ih =>
    obtain ⟨j, b⟩ := e
    simp only [List.map_cons, List.length_cons, List.range'_succ, List.cons.injEq] at h
    obtain ⟨rfl, h⟩ := h
    simp only [List.map_cons, memOfBytesFrom]
    rw [← ih (j + 1) h]

/-- Canonical memories are exactly the memories of byte sequences: equal inputs are equal data. -/
theorem wf_iff_memOfBytes (m : Memory) : Memory.wf m = true ↔ ∃ bs, m = memOfBytes bs := by
  constructor
  · intro h
    refine ⟨m.map Prod.snd, eq_memOfBytesFrom m 0 ?_⟩
    simpa [Memory.wf, List.range_eq_range'] using h
  · rintro ⟨bs, rfl⟩
    exact memOfBytes_wf bs

theorem memRead_memOfBytesFrom (a : Nat) (bs : List Byte) (j : Nat) :
    memRead (memOfBytesFrom a bs) j = if a ≤ j then bs[j - a]? else none := by
  induction bs generalizing a with
  | nil => simp [memOfBytesFrom, memRead]
  | cons b bs ih =>
    simp only [memOfBytesFrom, memRead, ih]
    by_cases h : a = j
    · subst h; simp
    · by_cases h' : a ≤ j
      · have h1 : a + 1 ≤ j := by omega
        have h2 : j - a = (j - (a + 1)) + 1 := by omega
        simp [h, h', h1, h2]
      · have h1 : ¬ a + 1 ≤ j := by omega
        simp [h, h', h1]

/-- A read after LOAD gives the byte loaded, and nothing outside the input. -/
@[simp] theorem memRead_memOfBytes (bs : List Byte) (j : Nat) : memRead (memOfBytes bs) j = bs[j]? := by
  simp [memOfBytes, memRead_memOfBytesFrom]

/-- In a canonical memory exactly the addresses below `N` exist. -/
theorem memRead_isSome (m : Memory) (h : Memory.wf m = true) (j : Nat) :
    (memRead m j).isSome = true ↔ j < m.length := by
  obtain ⟨bs, rfl⟩ := (wf_iff_memOfBytes m).mp h
  simp

/-- BIT never reads at or above `L`. -/
theorem memBit_none_of_le (m : Memory) (i : Nat) (h : memBitLen m ≤ i) : memBit m i = none := by
  have : ¬ i < memBitLen m := by omega
  simp [memBit, this]

theorem memBit_lt {m : Memory} {i : Nat} {b : Bool} (h : memBit m i = some b) : i < memBitLen m := by
  by_contra hi
  rw [memBit_none_of_le m i (by omega)] at h
  cases h

/-- BIT in terms of the byte read. -/
theorem memBit_eq_some {m : Memory} {i : Nat} {x : Byte} (hi : i < memBitLen m) (hx : memRead m (i / 8) = some x) :
    memBit m i = some (x.getMsbD (i % 8)) := by
  simp [memBit, hi, hx]

/-- In a canonical memory every index below `L` can be read. -/
theorem memBit_isSome {m : Memory} (h : Memory.wf m = true) {i : Nat} (hi : i < memBitLen m) :
    ∃ b, memBit m i = some b := by
  have : (memRead m (i / 8)).isSome = true :=
    (memRead_isSome m h _).mpr (by unfold memBitLen at hi; omega)
  obtain ⟨x, hx⟩ := Option.isSome_iff_exists.mp this
  exact ⟨_, memBit_eq_some hi hx⟩

/-- What a multi-bit read answers: as many bits as asked for, each the one BIT gives. -/
theorem memBitsFrom_eq_some {m : Memory} {lo n : Nat} {w : Bits} (h : memBitsFrom m lo n = some w) :
    w.length = n ∧ ∀ j, j < n → w[j]? = memBit m (lo + j) := by
  induction n generalizing lo w with
  | zero => simp_all [memBitsFrom]
  | succ n ih =>
    simp only [memBitsFrom] at h
    split at h
    next b hb =>
      split at h
      next w' hw' =>
        cases h
        obtain ⟨hl, hj⟩ := ih hw'
        refine ⟨by simp [hl], fun j hjn => ?_⟩
        cases j with
        | zero => simpa using hb.symm
        | succ j => simpa [Nat.add_assoc, Nat.add_comm 1 j] using hj j (by omega)
      next => cases h
    next => cases h

theorem memBitsFrom_isSome {m : Memory} (h : Memory.wf m = true) {lo n : Nat} (hn : lo + n ≤ memBitLen m) :
    ∃ w, memBitsFrom m lo n = some w := by
  induction n generalizing lo with
  | zero => exact ⟨[], rfl⟩
  | succ n ih =>
    obtain ⟨b, hb⟩ := memBit_isSome h (i := lo) (by omega)
    obtain ⟨w, hw⟩ := ih (lo := lo + 1) (by omega)
    exact ⟨b :: w, by simp [memBitsFrom, hb, hw]⟩

/-- What SLICE answers when it answers bits. -/
theorem memSlice_eq_some {m : Memory} {lo hi : Nat} {w : Bits} (h : memSlice m lo hi = some w) :
    lo ≤ hi ∧ hi ≤ memBitLen m ∧ w.length = hi - lo ∧ ∀ j, j < hi - lo → w[j]? = memBit m (lo + j) := by
  unfold memSlice at h
  split at h
  · cases h
  · obtain ⟨h1, h2⟩ := memBitsFrom_eq_some h
    exact ⟨by omega, by omega, h1, h2⟩

/-- In a canonical memory every range inside the input can be read. -/
theorem memSlice_isSome {m : Memory} (h : Memory.wf m = true) {lo hi : Nat} (h1 : lo ≤ hi) (h2 : hi ≤ memBitLen m) :
    ∃ w, memSlice m lo hi = some w := by
  obtain ⟨w, hw⟩ := memBitsFrom_isSome h (lo := lo) (n := hi - lo) (by omega)
  exact ⟨w, by simp [memSlice, hw]; omega⟩

/-! ### Tables -/

@[simp] theorem mem_symInsert (sym : List Byte) (g x : Byte) : x ∈ symInsert sym g ↔ x ∈ sym ∨ x = g := by
  unfold symInsert
  split
  · constructor
    · exact Or.inl
    · rintro (h | rfl) <;> assumption
  · simp

theorem symInsert_nodup {sym : List Byte} (g : Byte) (h : sym.Nodup) : (symInsert sym g).Nodup := by
  unfold symInsert
  split
  next => exact h
  next hg => exact List.Nodup.append h (List.nodup_singleton g) (by simpa using hg)

theorem symInsert_prefix (sym : List Byte) (g : Byte) : sym <+: symInsert sym g := by
  unfold symInsert
  split
  · exact List.prefix_rfl
  · exact List.prefix_append _ _

@[simp] theorem codeInsert_keys (ct : CodeTable) (k : Bits) (s : Byte) :
    codeKeys (codeInsert ct k s) = codeKeys ct ++ [k] := by simp [codeInsert, codeKeys]

/-- The map update of 00 R11, at the key written. -/
@[simp] theorem codeLookup_codeInsert_self (ct : CodeTable) (k : Bits) (s : Byte) :
    codeLookup (codeInsert ct k s) k = some s := by
  induction ct with
  | nil => simp [codeInsert, codeLookup]
  | cons e t ih => simpa [codeInsert, codeLookup] using by simp [codeInsert] at ih; simp [ih]

/-- The map update of 00 R11, at every other key. -/
theorem codeLookup_codeInsert_of_ne (ct : CodeTable) (k k' : Bits) (s : Byte) (h : k' ≠ k) :
    codeLookup (codeInsert ct k s) k' = codeLookup ct k' := by
  induction ct with
  | nil => simp [codeInsert, codeLookup, Ne.symm h]
  | cons e t ih =>
    simp only [codeInsert, List.cons_append, codeLookup] at ih ⊢
    rw [ih]

/-- A bit string is a key exactly when the lookup finds it. -/
theorem codeLookup_eq_none (ct : CodeTable) (k : Bits) : codeLookup ct k = none ↔ k ∉ codeKeys ct := by
  induction ct with
  | nil => simp [codeLookup, codeKeys]
  | cons e t ih =>
    obtain ⟨k', s⟩ := e
    simp only [codeLookup, codeKeys, List.map_cons, List.mem_cons, not_or]
    simp only [codeKeys] at ih
    cases h : codeLookup t k with
    | some x =>
      have : k ∈ t.map Prod.fst := by
        by_contra hk
        simp [ih.mpr hk] at h
      simp only [reduceCtorEq, false_iff, not_and, not_not]
      exact fun _ => this
    | none =>
      by_cases hk : k' = k
      · simp [hk]
      · simp [hk, ih.mp h, Ne.symm hk]

/-- The pairwise check of 43 R167. -/
theorem prefixFree_iff (ct : CodeTable) :
    prefixFree ct = true ↔ (codeKeys ct).Pairwise (fun a b => ¬ a <+: b ∧ ¬ b <+: a) := by
  induction ct with
  | nil => simp [prefixFree, codeKeys]
  | cons e t ih => simp [prefixFree, codeKeys, ih, List.all_eq_true, ← List.isPrefixOf_iff_prefix]

/-! ### Decoder pieces -/

@[simp] theorem byteBits_length (b : Byte) : (byteBits b).length = 8 := by simp [byteBits]

theorem bitsToNat_foldl (w : Bits) (a : Nat) :
    w.foldl (fun acc b => 2 * acc + b.toNat) a = a * 2 ^ w.length + bitsToNat w := by
  induction w generalizing a with
  | nil => simp [bitsToNat]
  | cons b w ih =>
    simp only [List.foldl_cons, bitsToNat, List.length_cons]
    rw [ih, ih (2 * 0 + b.toNat)]
    ring

/-- The first bit is the most significant (00 R9). -/
theorem bitsToNat_cons (b : Bool) (w : Bits) : bitsToNat (b :: w) = b.toNat * 2 ^ w.length + bitsToNat w := by
  have := bitsToNat_foldl w (2 * 0 + b.toNat)
  simpa [bitsToNat] using this

/-- The 8 bits of a byte name that byte (20 R62). -/
theorem bitsToNat_byteBits (b : Byte) : bitsToNat (byteBits b) = b.toNat := by
  revert b; decide

/-- A byte-aligned group of a byte sequence is the byte (42 R153). -/
theorem alphabetGroup_bytesBits {bs : List Byte} {k : Nat} {b : Byte} (h : bs[k]? = some b) :
    alphabetGroup (bytesBits bs) (8 * k) = b := by
  induction bs generalizing k with
  | nil => simp at h
  | cons a bs ih =>
    have hs : bytesBits (a :: bs) = byteBits a ++ bytesBits bs := rfl
    cases k with
    | zero =>
      obtain rfl : a = b := by simpa using h
      simp [alphabetGroup, hs, bitsToNat_byteBits]
    | succ k =>
      have hd : (bytesBits (a :: bs)).drop (8 * (k + 1)) = (bytesBits bs).drop (8 * k) := by
        rw [hs, show 8 * (k + 1) = (byteBits a).length + 8 * k by simp; omega, List.drop_append]
        simp [List.drop_eq_nil_of_le]
      simpa [alphabetGroup, hd] using ih (by simpa using h)

theorem classifyCode_isCode (cfg : Word) (s : Byte) (k : Bits) :
    classifyCode cfg s k = .codeEmit k ∨ classifyCode cfg s k = .codeTerm k ∨ classifyCode cfg s k = .codeDrop k := by
  unfold classifyCode
  split
  · exact .inl rfl
  · split
    · exact .inr (.inl rfl)
    · split
      · exact .inr (.inr rfl)
      · exact .inl rfl

end Sys2Proof.Machine
end

