-- ==== Sys2Proof/Laws/CodeTree.lean ====
section
/-!
SUPPORT. The paths of a full binary tree: what splitting a leaf does, and that they are a prefix-free, complete code.
-/
namespace Sys2Proof.Machine

/-- Every tree has a leaf. -/
theorem CodeTree.paths_ne_nil (t : CodeTree) : t.paths ≠ [] := by
  induction t with
  | leaf => simp [CodeTree.paths]
  | node l r ih1 ih2 => simp [CodeTree.paths, ih1]

/-- What NODE does to a tree: a leaf becomes an internal node with two leaves (43 R162). -/
theorem CodeTree.split_leaf (t : CodeTree) : ∀ A p B, t.paths = A ++ p :: B →
    ∃ t' : CodeTree, t'.paths = A ++ (p ++ [false]) :: (p ++ [true]) :: B := by
  induction t with
  | leaf =>
    intro A p B h
    cases A with
    | nil => simp [CodeTree.paths] at h; obtain ⟨rfl, rfl⟩ := h; exact ⟨.node .leaf .leaf, by simp [CodeTree.paths]⟩
    | cons a A => simp [CodeTree.paths] at h
  | node l r ihl ihr =>
    intro A p B h
    simp only [CodeTree.paths] at h
    rcases List.append_eq_append_iff.mp h with ⟨C, h1, h2⟩ | ⟨C, h1, h2⟩
    · -- A = l.paths.map ++ C ; r.map = C ++ p::B
      obtain ⟨C', D, hr, hC, hD⟩ := List.map_eq_append_iff.mp h2
      obtain ⟨p', D', hD1, rfl, hD2⟩ := List.map_eq_cons_iff.mp hD
      subst hD1
      obtain ⟨r', hr'⟩ := ihr C' p' D' hr
      exact ⟨.node l r', by simp [CodeTree.paths, hr', h1, ← hC, ← hD2]⟩
    · -- l.map = A ++ C; p::B = C ++ r.map
      cases C with
      | nil =>
        simp at h1 h2
        obtain ⟨p', D', hD1, rfl, hD2⟩ := List.map_eq_cons_iff.mp h2.symm
        obtain ⟨r', hr'⟩ := ihr [] p' D' (by simpa using hD1)
        exact ⟨.node l r', by simp [CodeTree.paths, hr', h1, ← hD2]⟩
      | cons c C =>
        simp at h2
        obtain ⟨rfl, hB⟩ := h2
        obtain ⟨A', D, hl, hA, hD⟩ := List.map_eq_append_iff.mp h1
        obtain ⟨p', D', hD1, rfl, hD2⟩ := List.map_eq_cons_iff.mp hD
        subst hD1
        obtain ⟨l', hl'⟩ := ihl A' p' D' hl
        exact ⟨.node l' r, by simp [CodeTree.paths, hl', hB, ← hA, ← hD2]⟩

/-- No path of a tree is a prefix of another (43 R168(c)). -/
theorem FullCode.prefixFree {ks : List Bits} (h : FullCode ks) : ks.Pairwise (fun a b => ¬ a <+: b ∧ ¬ b <+: a) := by
  obtain ⟨t, rfl⟩ := h
  induction t with
  | leaf => simp [CodeTree.paths]
  | node l r ihl ihr =>
    simp only [CodeTree.paths, List.pairwise_append, List.pairwise_map]
    refine ⟨?_, ?_, ?_⟩
    · exact ihl.imp (by simp [List.cons_prefix_cons])
    · exact ihr.imp (by simp [List.cons_prefix_cons])
    · intro a ha b hb
      simp at ha hb
      obtain ⟨a', -, rfl⟩ := ha
      obtain ⟨b', -, rfl⟩ := hb
      simp [List.cons_prefix_cons]

/-- Every bit string meets a path of a tree (43 R168(d)). -/
theorem FullCode.complete {ks : List Bits} (h : FullCode ks) (w : Bits) : ∃ k ∈ ks, k <+: w ∨ w <+: k := by
  obtain ⟨t, rfl⟩ := h
  induction t generalizing w with
  | leaf => exact ⟨[], by simp [CodeTree.paths]⟩
  | node l r ihl ihr =>
    cases w with
    | nil => obtain ⟨k, hk⟩ := List.exists_mem_of_ne_nil _ (CodeTree.paths_ne_nil (.node l r)); exact ⟨k, hk, .inr (by simp)⟩
    | cons b w =>
      cases b
      · obtain ⟨k, hk, h⟩ := ihl w; exact ⟨false :: k, by simp [CodeTree.paths, hk], by simpa [List.cons_prefix_cons] using h⟩
      · obtain ⟨k, hk, h⟩ := ihr w; exact ⟨true :: k, by simp [CodeTree.paths, hk], by simpa [List.cons_prefix_cons] using h⟩

/-- A path is shorter than the number of leaves (43 R168(e)). -/
theorem FullCode.length_lt {ks : List Bits} (h : FullCode ks) : ∀ k ∈ ks, k.length + 1 ≤ ks.length := by
  obtain ⟨t, rfl⟩ := h
  induction t with
  | leaf => simp [CodeTree.paths]
  | node l r ihl ihr =>
    have h1 := List.length_pos_iff.mpr (CodeTree.paths_ne_nil l)
    have h2 := List.length_pos_iff.mpr (CodeTree.paths_ne_nil r)
    intro k hk
    simp [CodeTree.paths] at hk ⊢
    rcases hk with ⟨a, ha, rfl⟩ | ⟨a, ha, rfl⟩
    · have := ihl a ha; simp; omega
    · have := ihr a ha; simp; omega

/-- Two different keys of a prefix-free list are no prefixes of each other. -/
theorem not_prefix_of_pairwise {ks : List Bits} (h : ks.Pairwise (fun a b => ¬ a <+: b ∧ ¬ b <+: a)) {a b : Bits}
    (ha : a ∈ ks) (hb : b ∈ ks) (hab : a ≠ b) : ¬ a <+: b := by
  induction ks with
  | nil => simp at ha
  | cons x xs ih =>
    simp at ha hb h
    rcases ha with rfl | ha <;> rcases hb with rfl | hb
    · exact absurd rfl hab
    · exact (h.1 b hb).1
    · exact (h.1 a ha).2
    · exact ih h.2 ha hb

end Sys2Proof.Machine
end

