-- ==== Sys2Proof/Laws/PerInstr.lean ====
section
/-!
SUPPORT. Per instruction: the encoder writes exactly as many bits as the element has (30 R103).
-/
namespace Sys2Proof.Laws.EncodedWidth

/-- Whatever the encoder writes for `i`, it is as long as 30 R103 and spec/opcode_table.json say. -/
def Statement (i : Instr) : Prop :=
  ∀ padLen w, i.wellFormed = true → encode padLen i = some w → w.length = i.width padLen

theorem size (n : Byte) : Statement (.size n) := by
  rintro p w - h
  cases h
  exact Machine.byteBits_length n

theorem sym (s : Byte) : Statement (.sym s) := by
  rintro p w - h
  cases h
  exact Machine.byteBits_length s

theorem node : Statement .node := by
  rintro p w - h
  cases h
  rfl

theorem leaf : Statement .leaf := by
  rintro p w - h
  cases h
  rfl

theorem pad : Statement .pad := by
  rintro p w - h
  cases h
  exact List.length_replicate

theorem codeEmit (k : Bits) : Statement (.codeEmit k) := by
  rintro p w - h
  cases h
  rfl

theorem codeTerm (k : Bits) : Statement (.codeTerm k) := by
  rintro p w - h
  cases h
  rfl

theorem codeDrop (k : Bits) : Statement (.codeDrop k) := by
  rintro p w - h
  cases h
  rfl

theorem eos : Statement .eos := by
  rintro p w - h
  cases h
  rfl

theorem load (bs : List Byte) : Statement (.load bs) := by
  rintro p w - h
  cases h

theorem bit (i : Nat) : Statement (.bit i) := by
  rintro p w - h
  cases h

theorem slice (lo hi : Nat) : Statement (.slice lo hi) := by
  rintro p w - h
  cases h

theorem uint (u : Bits) : Statement (.uint u) := by
  rintro p w - h
  cases h

theorem reset : Statement .reset := by
  rintro p w - h
  cases h

theorem config (v : Word) : Statement (.config v) := by
  rintro p w - h
  cases h

theorem start : Statement .start := by
  rintro p w - h
  cases h

theorem result : Statement .result := by
  rintro p w - h
  cases h

end Sys2Proof.Laws.EncodedWidth
end

