-- ==== Sys2Proof/Laws/Sequencer.lean ====
section
/-!
SUPPORT. Said once: which step a state selects, and everything a step can do.
-/
namespace Sys2Proof.Machine

/-- A byte-wide window decodes to its byte. -/
theorem decodeByte_of_length (f : Byte → Instr) {w : Bits} (h : w.length = 8) :
    decodeByte f w = .instr (f (BitVec.ofNat 8 (bitsToNat w))) [] := by
  simp [decodeByte, h, List.take_of_length_le, List.drop_eq_nil_of_le]

/-- In DECODE one message bit is decoded by one lookup (44 R183). -/
theorem fetchWith_decode (s : State) (b : Bool) (hp : s.phase = .decode) :
    fetchWith s [b] =
      match codeLookup s.ct (s.cand ++ [b]) with
      | some x => .element (classifyCode s.cfg x (s.cand ++ [b]))
      | none => .shift (s.cand ++ [b]) := by
  unfold fetchWith decode
  simp only [State.decodeContext, hp, matchCode]
  cases codeLookup s.ct (s.cand ++ [b]) <;> rfl

/-- What fetch answers in the HEADER phase. -/
theorem fetch_header {s : State} (hp : s.phase = .header) :
    fetch s = if s.bitLen < 8 then .outOfRange 0 else
      match memSlice s.bytes 0 8 with
      | some w => .element (.size (BitVec.ofNat 8 (bitsToNat w)))
      | none => .outOfRange 8 := by
  unfold fetch
  rw [hp]
  dsimp only
  split
  · rfl
  · cases hw : memSlice s.bytes 0 8 with
    | none => rfl
    | some w =>
      have hl := (memSlice_eq_some hw).2.2.1
      simp only [fetchBits, fetchWith, decode, State.decodeContext, hp]
      rw [decodeByte_of_length _ (by omega)]

/-- What fetch answers in the ALPHABET phase. -/
theorem fetch_alphabet {s : State} (hp : s.phase = .alphabet) :
    fetch s = if s.cur < s.aend then
      match memSlice s.bytes s.cur (s.cur + 8) with
      | some w => .element (.sym (BitVec.ofNat 8 (bitsToNat w)))
      | none => .outOfRange (s.cur + 8)
      else .alphabetExit := by
  unfold fetch
  rw [hp]
  dsimp only
  split
  · cases hw : memSlice s.bytes s.cur (s.cur + 8) with
    | none => rfl
    | some w =>
      have hl := (memSlice_eq_some hw).2.2.1
      simp only [fetchBits, fetchWith, decode, State.decodeContext, hp]
      rw [decodeByte_of_length _ (by omega)]
  · rfl

/-- What fetch answers in the TREE phase. -/
theorem fetch_tree {s : State} (hp : s.phase = .tree) :
    fetch s = match memBit s.bytes s.cur with
      | some false => .element .node
      | some true => .element .leaf
      | none => .outOfRange s.cur := by
  unfold fetch
  rw [hp]
  dsimp only
  cases hb : memBit s.bytes s.cur with
  | none => rfl
  | some b => cases b <;> simp [fetchBits, fetchWith, decode, State.decodeContext, hp]

/-- What fetch answers in the PAD phase. -/
theorem fetch_pad {s : State} (hp : s.phase = .pad) : fetch s = .element .pad := by
  simp [fetch, hp, fetchWith, decode, State.decodeContext]

/-- What fetch answers in the DECODE phase. -/
theorem fetch_decode {s : State} (hp : s.phase = .decode) :
    fetch s = if s.cur = s.bitLen then .element .eos else
      match memBit s.bytes s.cur with
      | some b =>
        (match codeLookup s.ct (s.cand ++ [b]) with
        | some x => .element (classifyCode s.cfg x (s.cand ++ [b]))
        | none => .shift (s.cand ++ [b]))
      | none => .outOfRange s.cur := by
  unfold fetch
  rw [hp]
  dsimp only
  split
  · simp [fetchWith, decode, State.decodeContext, hp]
  · cases hb : memBit s.bytes s.cur with
    | none => rfl
    | some b => simpa [fetchBits] using fetchWith_decode s b hp

/-- Outside a running operation the sequencer has no step (45 R210). -/
theorem fetch_not_running {s : State} (h : s.running = false) : fetch s = .idle := by
  unfold State.running at h
  unfold fetch
  cases hp : s.phase <;> simp_all [phaseRunning]

/-- What SIZE can do (41 R141). -/
theorem execSize_cases {n : Byte} {s t : State} (h : execSize n s = .next t) :
    (∃ pos, t = raise .outOfRange pos s) ∨
    (t = sizeAccept n s ∧ 8 ≤ s.bitLen ∧ treeStart n ≤ s.bitLen ∧
      boundaryOk (alphabetEnd s.params.alphabetEnd n s.bitLen) s.bitLen = true) := by
  unfold execSize at h
  injection h with h
  split at h
  · exact .inl ⟨_, h.symm⟩
  · split at h
    · exact .inl ⟨_, h.symm⟩
    · split at h
      · exact .inr ⟨h.symm, by omega, by omega, by assumption⟩
      · exact .inl ⟨_, h.symm⟩

/-- What LEAF can do (43 R163 to R167). -/
theorem execLeaf_cases {s t : State} (h : execLeaf s = .next t) :
    (∃ pos, t = raise .leafMismatch pos s) ∨
    (∃ x pos, s.sym[s.leaf]? = some x ∧ s.stk = [] ∧ prefixFree (codeInsert s.ct s.path x) = false ∧
      t = raise .invalidPrefixCode pos s) ∨
    (∃ x q rest, s.sym[s.leaf]? = some x ∧ s.stk = q :: rest ∧
      t = { leafRecord x s with path := q ++ [true], stk := rest }) ∨
    (∃ x, s.sym[s.leaf]? = some x ∧ s.stk = [] ∧ s.leaf + 1 = s.asize.toNat ∧
      prefixFree (codeInsert s.ct s.path x) = true ∧
      t = { leafRecord x s with teo := s.cur + 1, phase := .pad }) := by
  unfold execLeaf leafSymbol at h
  injection h with h
  split at h
  · exact .inl ⟨_, h.symm⟩
  next x hx =>
    split at h
    next q rest hq => exact .inr (.inr (.inl ⟨x, q, rest, hx, hq, h.symm⟩))
    next hq =>
      unfold completeTree at h
      split at h
      · exact .inl ⟨_, h.symm⟩
      next hc =>
        split at h
        next hf => exact .inr (.inr (.inr ⟨x, hx, hq, by simpa using hc, by simpa using hf, h.symm⟩))
        next hf => exact .inr (.inl ⟨x, _, hx, hq, by simpa using hf, h.symm⟩)

/-- What PAD can do (44 R181, R182). -/
theorem execPad_cases {s t : State} (h : execPad s = .next t) :
    (t = raiseIn .decode .degenerateTree (s.teo + padLength s) s ∧ ∃ x, codeLookup s.ct [] = some x) ∨
    (codeLookup s.ct [] = none ∧
      t = { s with padLen := padLength s, mso := s.teo + padLength s, cur := s.teo + padLength s, phase := .decode, cand := [] }) := by
  unfold execPad codeSymbol at h
  injection h with h
  split at h
  next x hx => exact .inl ⟨h.symm, x, hx⟩
  next hx => exact .inr ⟨hx, h.symm⟩

/-- What EOS can do (44 R191, R192). -/
theorem execEos_cases {s t : State} (h : execEos s = .next t) :
    (s.cand ≠ [] ∧ t = raise .truncation (s.bitLen - s.cand.length) s) ∨
    (s.cand = [] ∧ t = { s with phase := .done }) := by
  unfold execEos at h
  injection h with h
  split at h
  next hc => exact .inl ⟨hc, h.symm⟩
  next hc => exact .inr ⟨by simpa using hc, h.symm⟩

/-- What a matched CODE does (44 R186, R188, R189): the three outcomes of 30 R99. -/
theorem execCode_cases {s t : State} {x : Byte} {k : Bits} (hk : codeLookup s.ct k = some x)
    (h : exec (classifyCode s.cfg x k) s = .next t) :
    t = { shiftMatched s with out := s.out ++ [x] } ∨
    t = { shiftMatched s with out := s.out ++ [s.params.newline], termStop := true, phase := .done } ∨
    t = shiftMatched s := by
  rcases classifyCode_isCode s.cfg x k with hc | hc | hc <;> rw [hc] at h <;>
    simp only [exec, execCodeEmit, execCodeTerm, execCodeDrop, codeSymbol, hk] at h <;> injection h with h
  · exact .inl h.symm
  · exact .inr (.inl h.symm)
  · exact .inr (.inr h.symm)

/-! ### The steps -/

/-- A raise of the sequencer (60 R231 to R237): the phase recorded, and what each kind tells of the state. -/
structure Raises (s : State) (ph : Phase) (k : ErrKind) : Prop where
  running  : s.running = true
  recorded : ph = if s.phase = .pad then .decode else s.phase
  kind     : k ≠ .none
  range    : k = .outOfRange →
    s.phase = .header ∨ s.phase = .tree ∨
    s.phase = .alphabet ∧ s.cur < s.aend ∧ memSlice s.bytes s.cur (s.cur + 8) = none ∨
    s.phase = .decode ∧ s.cur ≠ s.bitLen ∧ memBit s.bytes s.cur = none
  leaves   : k = .leafMismatch → s.phase = .tree
  code     : k = .invalidPrefixCode → s.phase = .tree ∧
    ∃ x, s.sym[s.leaf]? = some x ∧ s.stk = [] ∧ prefixFree (codeInsert s.ct s.path x) = false
  cut      : k = .truncation → s.phase = .decode
  single   : k = .degenerateTree → s.phase = .pad

/-- Everything the sequencer can do in one step (45 R212), one constructor per outcome. -/
inductive SeqStep (s : State) : State → Prop
  | wait (h : s.running = false) : SeqStep s s
  | header (n : Byte) (hp : s.phase = .header) (hL : 8 ≤ s.bitLen) (ht : treeStart n ≤ s.bitLen)
      (ha : boundaryOk (alphabetEnd s.params.alphabetEnd n s.bitLen) s.bitLen = true) : SeqStep s (sizeAccept n s)
  | symbol (g : Byte) (hp : s.phase = .alphabet) (hc : s.cur < s.aend) (hL : s.cur + 8 ≤ s.bitLen) :
      SeqStep s { s with sym := symInsert s.sym g, cur := s.cur + 8 }
  | exit (hp : s.phase = .alphabet) (hc : ¬ s.cur < s.aend) : SeqStep s (alphabetExit s)
  | node (hp : s.phase = .tree) (hc : s.cur < s.bitLen) :
      SeqStep s { s with stk := s.path :: s.stk, path := s.path ++ [false], cur := s.cur + 1 }
  | leafRight (x : Byte) (q : Bits) (rest : List Bits) (hp : s.phase = .tree) (hc : s.cur < s.bitLen)
      (hx : s.sym[s.leaf]? = some x) (hq : s.stk = q :: rest) :
      SeqStep s { leafRecord x s with path := q ++ [true], stk := rest }
  | leafLast (x : Byte) (hp : s.phase = .tree) (hc : s.cur < s.bitLen) (hx : s.sym[s.leaf]? = some x) (hq : s.stk = [])
      (hn : s.leaf + 1 = s.asize.toNat) (hf : prefixFree (codeInsert s.ct s.path x) = true) :
      SeqStep s { leafRecord x s with teo := s.cur + 1, phase := .pad }
  | pad (hp : s.phase = .pad) (hk : codeLookup s.ct [] = none) :
      SeqStep s { s with padLen := padLength s, mso := s.teo + padLength s, cur := s.teo + padLength s, phase := .decode,
                         cand := [] }
  | eos (hp : s.phase = .decode) (hc : s.cur = s.bitLen) (hk : s.cand = []) : SeqStep s { s with phase := .done }
  | shift (b : Bool) (hp : s.phase = .decode) (hc : s.cur < s.bitLen) (hk : codeLookup s.ct (s.cand ++ [b]) = none) :
      SeqStep s (shiftPending (s.cand ++ [b]) s)
  | emit (b : Bool) (x : Byte) (hp : s.phase = .decode) (hc : s.cur < s.bitLen)
      (hk : codeLookup s.ct (s.cand ++ [b]) = some x) : SeqStep s { shiftMatched s with out := s.out ++ [x] }
  | term (b : Bool) (x : Byte) (hp : s.phase = .decode) (hc : s.cur < s.bitLen)
      (hk : codeLookup s.ct (s.cand ++ [b]) = some x) :
      SeqStep s { shiftMatched s with out := s.out ++ [s.params.newline], termStop := true, phase := .done }
  | drop (b : Bool) (x : Byte) (hp : s.phase = .decode) (hc : s.cur < s.bitLen)
      (hk : codeLookup s.ct (s.cand ++ [b]) = some x) : SeqStep s (shiftMatched s)
  | fails (ph : Phase) (k : ErrKind) (pos : Nat) (h : Raises s ph k) : SeqStep s (raiseIn ph k pos s)

theorem running_of_phase {s : State} {p : Phase} (hp : s.phase = p) (h : phaseRunning p = true) : s.running = true := by
  simp [State.running, hp, h]

/-- OUT_OF_RANGE raised in a phase that is not PAD. -/
theorem SeqStep.outOfRange {s : State} (pos : Nat) (hr : s.running = true) (hn : s.phase ≠ .pad)
    (h : s.phase = .header ∨ s.phase = .tree ∨
      s.phase = .alphabet ∧ s.cur < s.aend ∧ memSlice s.bytes s.cur (s.cur + 8) = none ∨
      s.phase = .decode ∧ s.cur ≠ s.bitLen ∧ memBit s.bytes s.cur = none) :
    SeqStep s (raise .outOfRange pos s) :=
  .fails s.phase .outOfRange pos ⟨hr, by simp [hn], by simp, fun _ => h, by simp, by simp, by simp, by simp⟩

/-- The inversion of the sequencer's step. -/
theorem sequencerStep_cases {s t : State} (h : sequencerStep s = .next t) : SeqStep s t := by
  unfold sequencerStep at h
  cases hp : s.phase with
  | idle | done | error =>
    have hr : s.running = false := by simp [State.running, hp, phaseRunning]
    rw [fetch_not_running hr] at h
    cases h
    exact .wait hr
  | header =>
    have hr := running_of_phase hp rfl
    have raises : ∀ pos, SeqStep s (raise .outOfRange pos s) := fun pos =>
      .outOfRange pos hr (by simp [hp]) (.inl hp)
    rw [fetch_header hp] at h
    split at h
    next hl => cases h; exact raises 0
    next hl =>
      split at h
      next w hw =>
        rcases execSize_cases h with ⟨pos, rfl⟩ | ⟨rfl, h1, h2, h3⟩
        · exact raises pos
        · exact .header _ hp h1 h2 h3
      next hw => cases h; exact raises 8
  | alphabet =>
    rw [fetch_alphabet hp] at h
    split at h
    next hc =>
      split at h
      next w hw => cases h; exact .symbol _ hp hc (memSlice_eq_some hw).2.1
      next hw =>
        cases h
        exact .outOfRange _ (running_of_phase hp rfl) (by simp [hp]) (.inr (.inr (.inl ⟨hp, hc, hw⟩)))
    next hc => cases h; exact .exit hp hc
  | tree =>
    have hr := running_of_phase hp rfl
    rw [fetch_tree hp] at h
    split at h
    next hb => cases h; exact .node hp (memBit_lt hb)
    next hb =>
      rcases execLeaf_cases h with ⟨pos, rfl⟩ | ⟨x, pos, hx, hq, hf, rfl⟩ | ⟨x, q, rest, hx, hq, rfl⟩ | ⟨x, hx, hq, hn, hf, rfl⟩
      · exact .fails _ _ pos ⟨hr, by simp [hp], by simp, by simp, fun _ => hp, by simp, by simp, by simp⟩
      · exact .fails _ _ pos ⟨hr, by simp [hp], by simp, by simp, by simp, fun _ => ⟨hp, x, hx, hq, hf⟩, by simp, by simp⟩
      · exact .leafRight x q rest hp (memBit_lt hb) hx hq
      · exact .leafLast x hp (memBit_lt hb) hx hq hn hf
    next hb => cases h; exact .outOfRange _ hr (by simp [hp]) (.inr (.inl hp))
  | pad =>
    rw [fetch_pad hp] at h
    rcases execPad_cases h with ⟨rfl, -⟩ | ⟨hk, rfl⟩
    · exact .fails _ _ _ ⟨running_of_phase hp rfl, by simp [hp], by simp, by simp, by simp, by simp, by simp, fun _ => hp⟩
    · exact .pad hp hk
  | decode =>
    have hr := running_of_phase hp rfl
    rw [fetch_decode hp] at h
    split at h
    next hc =>
      rcases execEos_cases h with ⟨-, rfl⟩ | ⟨hk, rfl⟩
      · exact .fails _ _ _ ⟨hr, by simp [hp], by simp, by simp, by simp, by simp, fun _ => hp, by simp⟩
      · exact .eos hp hc hk
    next hc =>
      split at h
      next b hb =>
        split at h
        next x hk =>
          rcases execCode_cases hk h with rfl | rfl | rfl
          · exact .emit b x hp (memBit_lt hb) hk
          · exact .term b x hp (memBit_lt hb) hk
          · exact .drop b x hp (memBit_lt hb) hk
        next hk => cases h; exact .shift b hp (memBit_lt hb) hk
      next hb => cases h; exact .outOfRange _ hr (by simp [hp]) (.inr (.inr (.inr ⟨hp, hc, hb⟩)))

/-- Everything a host command can do (45 R214 to R219). -/
inductive CommandStep (s : State) : State → Prop
  | reset : CommandStep s (resetBlock s)
  | ignored (h : s.running = true) : CommandStep s s
  | load (bs : List Byte) (h : s.running = false) : CommandStep s { s with bytes := memOfBytes bs }
  | config (v : Word) (h : s.running = false) : CommandStep s { s with cfg := v &&& cfgMask }
  | start (h : s.running = false) : CommandStep s (startOperation s)
  | result : CommandStep s (setReply (resultReply s) s)

/-- The inversion of a command. -/
theorem command_cases {c : Command} {s t : State} (h : exec c.toInstr s = .next t) : CommandStep s t := by
  have hr : ∀ b, s.running = b ∨ s.running = !b := by cases s.running <;> simp
  cases c <;> simp only [Command.toInstr, exec, execReset, execLoad, execConfig, execStart, execResult] at h <;> injection h with h
  · exact h ▸ .reset
  · rcases hr true with hr | hr <;> simp only [hr] at h <;> subst h
    · exact .ignored hr
    · exact .load _ hr
  · rcases hr true with hr | hr <;> simp only [hr] at h <;> subst h
    · exact .ignored hr
    · exact .config _ hr
  · rcases hr true with hr | hr <;> simp only [hr] at h <;> subst h
    · exact .ignored hr
    · exact .start hr
  · exact h ▸ .result

/-- Everything a step can do: the host's next move, or the sequencer's step. -/
theorem step_cases {s t : State} (h : step s = .next t) :
    (∃ c rest, s.host = .issue c :: rest ∧ CommandStep { s with host := rest } t) ∨
    (∃ rest, s.host = .wait :: rest ∧ SeqStep { s with host := rest } t) ∨
    (s.host = [] ∧ SeqStep s t) := by
  unfold step stepHost at h
  split at h
  next c rest hh => exact .inl ⟨c, rest, hh, command_cases h⟩
  next rest hh => exact .inr (.inl ⟨rest, hh, sequencerStep_cases h⟩)
  next hh => exact .inr (.inr ⟨hh, sequencerStep_cases h⟩)

/-- A property of steps that does not look at the host's moves: shown for commands and for the sequencer, it holds of every
step. -/
theorem step_induction {P : State → State → Prop} (command : ∀ s t, CommandStep s t → P s t)
    (sequencer : ∀ s t, SeqStep s t → P s t) (host : ∀ s t rest, P { s with host := rest } t → P s t) {s t : State}
    (h : step s = .next t) : P s t := by
  rcases step_cases h with ⟨c, rest, hh, hc⟩ | ⟨rest, hh, hs⟩ | ⟨hh, hs⟩
  · exact host s t rest (command _ _ hc)
  · exact host s t rest (sequencer _ _ hs)
  · exact sequencer _ _ hs

/-- With no host move the step is the sequencer's. -/
theorem step_no_host {s : State} (h : s.host = []) : step s = sequencerStep s := by
  simp [step, stepHost, h]

end Sys2Proof.Machine
end

