-- ==== Sys2Proof/Tests/Slice0.lean ====
section
/-!
SUPPORT. The model's own tests. Expected results are the vectors of spec/95_test_vectors.md (named in each docstring) or
are read off the rule named. `wit_` theorems are states and operands that meet a statement's hypotheses.
-/
namespace Sys2Proof.Tests
open Sys2Proof Sys2Proof.Machine

/-! ### Helpers -/

/-- One field of the next state. -/
def after {α : Type} (f : State → α) : Host.Outcome State Fault Refusal → Option α
  | .next s => some (f s)
  | .fault _ => none
  | .refused _ => none

/-- The next state. -/
def next? : Host.Outcome State Fault Refusal → Option State := after id

/-- The state after RESET and LOAD of `bs`. -/
def loaded (bs : List Byte) : State := { State.reset with bytes := memOfBytes bs }

/-- The container of program P1 (30 R108). -/
def p1Bytes : List Byte := [0x03, 0x61, 0x62, 0x63, 0x63, 0x58, 0x4C]

/-- P1 after START. -/
def p1Header : State := { loaded p1Bytes with phase := .header }

/-- P1 after SIZE. -/
def p1Alphabet : State := { loaded p1Bytes with phase := .alphabet, asize := 3, tso := 40, aend := 40, cur := 8 }

/-- P1 at the boundary of its alphabet. -/
def p1Boundary : State := { p1Alphabet with cur := 40, sym := [0x61, 0x62, 0x63] }

/-- P1 at the root of its tree. -/
def p1Root : State := { p1Boundary with phase := .tree }

/-- P1 at the LEAF after the root (T2, step 2). -/
def p1Left : State := { p1Root with cur := 41, path := [false], stk := [[]] }

/-- P1 at its last LEAF (T2, step 5). -/
def p1Last : State :=
  { p1Root with cur := 44, leaf := 2, path := [true, true], ct := [([false], 0x61), ([true, false], 0x62)] }

/-- The CodeTable of P1 (S6). -/
def p1Table : CodeTable := [([false], 0x61), ([true, false], 0x62), ([true, true], 0x63)]

/-- P1 in the PAD phase. -/
def p1Pad : State := { p1Root with phase := .pad, cur := 45, teo := 45, leaf := 3, path := [true, true], ct := p1Table }

/-- P1 at its first message bit. -/
def p1Decode : State := { p1Pad with phase := .decode, padLen := 3, mso := 48, cur := 48 }

/-- P1 after the first bit of its second CODE (`0`, then `1`). -/
def p1Pending : State := { p1Decode with cur := 50, cand := [true], out := [0x61] }

/-- P1 at the end of its input. -/
def p1End : State := { p1Decode with cur := 56, out := [0x61, 0x62, 0x61, 0x63, 0x61, 0x61] }

/-- P1 when it is done. -/
def p1Done : State := { p1End with phase := .done }

/-- P1 under a CFG: TERM = 0x63, REM = 0x62, filtered. -/
def p1Filtered : State := { p1Decode with cfg := 0x00076263 }

/-- A container of two bytes (vector B1). -/
def b1 : State := loaded [0xA5, 0x3C]

/-! ### Well-formed instructions -/

theorem test_codeEmit_needs_a_bit : (Instr.codeEmit []).wellFormed = false := by decide
theorem test_codeTerm_needs_a_bit : (Instr.codeTerm []).wellFormed = false := by decide
theorem test_codeDrop_needs_a_bit : (Instr.codeDrop []).wellFormed = false := by decide
theorem test_codeEmit_at_most_255 : (Instr.codeEmit (List.replicate 256 true)).wellFormed = false := by
  simp only [Instr.wellFormed, codeKeyOk, List.length_replicate]; decide
theorem test_codeTerm_at_most_255 : (Instr.codeTerm (List.replicate 256 true)).wellFormed = false := by
  simp only [Instr.wellFormed, codeKeyOk, List.length_replicate]; decide
theorem test_codeDrop_at_most_255 : (Instr.codeDrop (List.replicate 256 true)).wellFormed = false := by
  simp only [Instr.wellFormed, codeKeyOk, List.length_replicate]; decide
theorem test_code_of_255_bits : (Instr.codeEmit (List.replicate 255 true)).wellFormed = true := by
  simp only [Instr.wellFormed, codeKeyOk, List.length_replicate]; decide

/-! ### Decoding: words written out from 30 R92 to R97 -/

/-- 30 R92: `11111110` is SIZE with n = 254. -/
theorem test_decode_size :
    decode (tableContext .header) [true, true, true, true, true, true, true, false, true] = .instr (.size 254) [true] := by
  decide

/-- 30 R93, R108: `01100010` is SYM 'b'. -/
theorem test_decode_sym :
    decode (tableContext .alphabet) [false, true, true, false, false, false, true, false] = .instr (.sym 0x62) [] := by
  decide

/-- 30 R94: `0` is NODE. -/
theorem test_decode_node : decode (tableContext .tree) [false, true] = .instr .node [true] := by decide

/-- 30 R94: `1` is LEAF. -/
theorem test_decode_leaf : decode (tableContext .tree) [true, false] = .instr .leaf [false] := by decide

/-- 30 R95: a PAD of 3 bits, whatever they are. -/
theorem test_decode_pad :
    decode { tableContext .pad with padLen := 3 } [true, false, true, false] = .instr .pad [false] := by decide

/-- 30 R96, R99: `11` is 'c', neither terminator nor suppressed: emitted. -/
theorem test_decode_codeEmit :
    decode { tableContext .decode with ct := p1Table, cfg := 0x00076261 } [true, true, false] =
      .instr (.codeEmit [true, true]) [false] := by decide

/-- 30 R99: the terminator is recognised before the suppressed symbol. -/
theorem test_decode_codeTerm :
    decode { tableContext .decode with ct := p1Table, cfg := 0x00076262 } [true, false, false] =
      .instr (.codeTerm [true, false]) [false] := by decide

/-- 30 R99: the suppressed symbol. -/
theorem test_decode_codeDrop :
    decode { tableContext .decode with ct := p1Table, cfg := 0x00076163 } [false, false] =
      .instr (.codeDrop [false]) [false] := by decide

/-- 30 R97: no bit left is EOS. -/
theorem test_decode_eos : decode (tableContext .decode) [] = .instr .eos [] := by decide

/-- 30 R100: seven bits are no SIZE. -/
theorem test_decode_short : decode (tableContext .header) (List.replicate 7 false) = .short := by decide

/-- 20 R61: the first bit of a byte is its most significant. -/
theorem test_byteBits : byteBits 0xA5 = [true, false, true, false, false, true, false, true] := by decide

/-- The opcode table's T1 words: NODE and LEAF; another byte is a SIZE (log entry 12). -/
theorem test_decodeTableWord :
    decodeTableWord 1 0 = some .node ∧ decodeTableWord 1 1 = some .leaf ∧ decodeTableWord 8 3 = some (.size 3) ∧
    decodeTableWord 8 256 = none ∧ decodeTableWord 16 0 = none := by decide

/-- The host's placing: the very next step runs that instruction. -/
theorem test_withFetchWord :
    next? (step (State.reset.withFetchWord 1 0)) = next? (exec .node (State.reset.withFetchWord 1 0)) ∧
    next? (step (State.reset.withFetchWord 1 1)) = next? (exec .leaf (State.reset.withFetchWord 1 1)) ∧
    next? (step (State.reset.withFetchWord 8 3)) = next? (exec (.size 3) (State.reset.withFetchWord 8 3)) := by decide

/-! ### Memory and reset -/

theorem test_reset_memory : Memory.wf State.reset.bytes = true := by decide
theorem test_wf_refuses_a_hole : Memory.wf [(0, 1), (2, 3)] = false := by decide
theorem test_wf_refuses_a_repeat : Memory.wf [(0, 1), (0, 1)] = false := by decide

/-- 10 R33: STATUS after reset is 0; busy in HEADER is 0x81; DONE is 6. -/
theorem test_status : State.reset.status = 0x00 ∧ p1Header.status = 0x81 ∧ p1Done.status = 0x06 := by decide

/-! ### Commands and primitives -/

/-- Vector B1: `L = 16` and the bits of `A5 3C`. -/
theorem test_load :
    after (fun s => (s.bitLen, s.bits)) (exec (.load [0xA5, 0x3C]) State.reset) =
      some (16, [true, false, true, false, false, true, false, true, false, false, true, true, true, true, false, false]) := by
  decide

/-- 45 R219: LOAD while an operation runs does nothing. -/
theorem test_load_running : next? (exec (.load [0xFF]) p1Root) =
      some p1Root := by decide

/-- Vectors B5, B6. -/
theorem test_bit : next? (exec (.bit 10) b1) =
      some { b1 with reply := .bit true } := by decide
theorem test_bit_out_of_range :
    after (fun s => (s.phase, s.err, s.errPos)) (exec (.bit 16) b1) = some (.error, .outOfRange, 16) := by decide

/-- Vectors B9, B12. -/
theorem test_slice :
    next? (exec (.slice 4 12) b1) =
      some { b1 with reply := .slice [false, true, false, true, false, false, true, true] } := by decide
theorem test_slice_out_of_range :
    after (fun s => (s.phase, s.err, s.errPos)) (exec (.slice 8 17) b1) = some (.error, .outOfRange, 17) := by decide

/-- Vector B14. -/
theorem test_uint :
    next? (exec (.uint [true, false, true, false, false, true, false, true]) b1) =
      some { b1 with reply := .uint 165 } := by decide

/-- 45 R214: RESET acts while an operation runs. -/
theorem test_reset : next? (exec .reset p1Pending) =
      some State.reset := by decide

/-- 10 R41: the reserved bits of CFG read 0. -/
theorem test_config : after State.cfg (exec (.config 0xFFFFFFFF) State.reset) = some 0x0007FFFF := by decide
theorem test_config_running : next? (exec (.config 0xFFFFFFFF) p1Header) =
      some p1Header := by decide

/-- 45 R217: START from DONE clears the operation. -/
theorem test_start : next? (exec .start p1Done) =
      some p1Header := by decide

/-- 45 R218: RESULT in DONE. -/
theorem test_result :
    after State.reply (exec .result p1Done) = some (.message 0x06 [0x61, 0x62, 0x61, 0x63, 0x61, 0x61]) := by decide

/-! ### Elements -/

/-- Vectors H1, H8. -/
theorem test_size : next? (exec (.size 3) p1Header) =
      some p1Alphabet := by decide
theorem test_size_does_not_wrap :
    after (fun s => (s.err, s.errPhase, s.errPos)) (exec (.size 255) p1Header) = some (.outOfRange, .header, 2056) := by
  decide

/-- Vectors H11, H12: body (b) of `AlphabetEnd`. -/
theorem test_alphabetEnd_body_b : alphabetEnd .tsoTimes8 3 56 = 56 ∧ alphabetEnd .tsoTimes8 0 24 = 24 := by decide

/-- Vector A1: a first occurrence, then a duplicate. -/
theorem test_sym : after (fun s => (s.sym, s.cur)) (exec (.sym 0x61) p1Alphabet) = some ([0x61], 16) := by decide
theorem test_sym_duplicate :
    after State.sym (exec (.sym 0x63) { p1Boundary with cur := 32 }) = some [0x61, 0x62, 0x63] := by decide

/-- T2, step 1. -/
theorem test_node : next? (exec .node p1Root) =
      some p1Left := by decide

/-- T2, steps 2 and 5. -/
theorem test_leaf :
    next? (exec .leaf p1Left) =
      some { p1Left with path := [true], stk := [], leaf := 1, ct := [([false], 0x61)], cur := 42 } := by
  decide
theorem test_leaf_completes : next? (exec .leaf p1Last) =
      some p1Pad := by decide

/-- P1, PAD; and vector E6. -/
theorem test_pad : next? (exec .pad p1Pad) =
      some p1Decode := by decide
theorem test_pad_degenerate :
    after (fun s => (s.err, s.errPhase, s.padLen)) (exec .pad { p1Pad with ct := [([], 0x41)] }) =
      some (.degenerateTree, .decode, 0) := by decide

/-- P1, first CODE: 'a'. -/
theorem test_codeEmit : after (fun s => (s.out, s.cur)) (exec (.codeEmit [false]) p1Decode) = some ([0x61], 49) := by
  decide

/-- 44 R188: the newline, TERMSTOP, DONE. -/
theorem test_codeTerm :
    after (fun s => (s.out, s.termStop, s.phase)) (exec (.codeTerm [true, true]) p1Filtered) =
      some ([0x0A], true, .done) := by decide

/-- 44 R189: nothing is written. -/
theorem test_codeDrop :
    after (fun s => (s.out, s.cand, s.phase)) (exec (.codeDrop [true, false]) { p1Filtered with cand := [true] }) =
      some ([], [], .decode) := by decide

/-- 44 R191, R192. -/
theorem test_eos : next? (exec .eos p1End) =
      some p1Done := by decide
theorem test_eos_truncation :
    after (fun s => (s.err, s.errPos, s.out)) (exec .eos { p1End with cand := [true] }) =
      some (.truncation, 55, []) := by decide

/-- The step that is no element (42 R152). -/
theorem test_alphabet_exit : next? (step p1Boundary) =
      some p1Root := by decide

/-- S6: `DecodeStream("010011")` with the table of P1 is "abac". -/
theorem test_decodeStream :
    decodeStream [false, true, false, false, true, true] p1Table 0 0x0A = .ok [0x61, 0x62, 0x61, 0x63] false := by decide

/-! ### The invariants at a state inside an operation -/

theorem p1Left_form : FormInv p1Left := ⟨by decide, by intro i _; simp [p1Left, p1Root, p1Boundary, p1Alphabet, loaded, State.reset]⟩

theorem p1Left_layout : LayoutInv p1Left := by constructor <;> decide

theorem p1Left_tables : TablesInv p1Left where
  symNodup := by decide
  header := by decide
  alphabet := by decide
  symbols := by decide
  tree := fun _ => ⟨⟨.node .leaf .leaf, by decide⟩, by decide⟩
  table := fun h => absurd h (by decide)
  cand := by decide

theorem p1_fullCode : FullCode (codeKeys p1Table) := ⟨.node .leaf (.node .leaf .leaf), by decide⟩

theorem p1Pending_tables : TablesInv p1Pending where
  symNodup := by decide
  header := by decide
  alphabet := by decide
  symbols := by decide
  tree := fun h => absurd h (by decide)
  table := fun _ => ⟨p1_fullCode, by decide, by decide⟩
  cand := fun _ => by decide

theorem p1Pad_tables : TablesInv p1Pad where
  symNodup := by decide
  header := by decide
  alphabet := by decide
  symbols := by decide
  tree := fun h => absurd h (by decide)
  table := fun _ => ⟨p1_fullCode, by decide, by decide⟩
  cand := by decide

/-- A raised error: P1 cut after its first tree bit. -/
def p1Cut : State := { p1Root with bytes := memOfBytes [0x03, 0x61, 0x62, 0x63, 0x63] }

theorem p1Cut_form : FormInv p1Cut :=
  ⟨by decide, by intro i _; simp [p1Cut, p1Root, p1Boundary, p1Alphabet, loaded, State.reset]⟩

theorem p1Cut_layout : LayoutInv p1Cut := by constructor <;> decide

theorem p1Cut_tables : TablesInv p1Cut where
  symNodup := by decide
  header := by decide
  alphabet := by decide
  symbols := by decide
  tree := fun _ => ⟨⟨.leaf, by decide⟩, by decide⟩
  table := fun h => absurd h (by decide)
  cand := by decide

/-! ### Witnesses of the hypotheses, one per clause -/

theorem wit_ResetKeepsTheHostSide : (next? (step p1Left)).isSome = true := by decide
theorem wit_LoadReplacesTheInput_accepted : State.reset.running = false ∧ p1Done.running = false := by decide
theorem wit_LoadReplacesTheInput_running : p1Header.running = true ∧ p1Decode.running = true := by decide
theorem wit_LoadReplacesTheInput_bits :
    ([0xA5, 0x3C] : List Byte)[0]? = some 0xA5 ∧ ([0xA5, 0x3C] : List Byte)[1]? = some 0x3C ∧ 0 ≤ 7 ∧ 7 ≤ 7 := by decide
theorem wit_ConfigWritesTheRegister_accepted : State.reset.running = false := by decide
theorem wit_ConfigWritesTheRegister_running : p1Pad.running = true := by decide
theorem wit_StartClearsTheOperation_accepted : p1Done.running = false := by decide
theorem wit_StartClearsTheOperation_running : p1Root.running = true := by decide
theorem wit_StartForgetsTheEarlierOperation :
    (loaded p1Bytes).running = false ∧ p1Done.running = false ∧ p1Done.bytes = (loaded p1Bytes).bytes ∧
    p1Done.cfg = (loaded p1Bytes).cfg ∧ p1Done.params = (loaded p1Bytes).params ∧ p1Done.host = (loaded p1Bytes).host ∧
    p1Done.reply = (loaded p1Bytes).reply ∧ p1Done ≠ loaded p1Bytes := by decide
theorem wit_CommandsWhileRunning : p1Header.running = true ∧ p1Decode.running = true := by decide
theorem wit_ResultHandsOverTheOutcome_done : p1Done.phase = .done := by decide
theorem wit_ResultHandsOverTheOutcome_error : { p1End with phase := .error, err := .truncation }.phase = .error := by decide
theorem wit_ResultHandsOverTheOutcome_else : p1Root.phase ≠ .done ∧ p1Root.phase ≠ .error := by decide
theorem wit_StatusFields : 8 ≤ 8 ∧ 8 ≤ 31 := by decide
theorem wit_BitReadsOneBit_inside :
    0 < b1.bitLen ∧ memRead b1.bytes (0 / 8) = some 0xA5 ∧ 15 < b1.bitLen ∧ memRead b1.bytes (15 / 8) = some 0x3C := by decide
theorem wit_BitReadsOneBit_outside : b1.bitLen ≤ 16 := by decide
theorem wit_SliceReadsTheRange_inside :
    Memory.wf b1.bytes = true ∧ 0 ≤ 16 ∧ 16 ≤ b1.bitLen ∧ 15 < 16 - 0 ∧ memRead b1.bytes ((0 + 15) / 8) = some 0x3C := by decide
theorem wit_SliceReadsTheRange_empty : Memory.wf b1.bytes = true ∧ 16 ≤ 16 ∧ 16 ≤ b1.bitLen := by decide
theorem wit_SliceReadsTheRange_reversed : 8 < 9 ∧ ¬ b1.bitLen < 8 := by decide
theorem wit_SliceReadsTheRange_beyond : b1.bitLen < 17 := by decide
theorem wit_WideReadsAgreeWithBits_slice :
    memSlice b1.bytes 8 10 = some [false, false] ∧ 8 ≤ 9 ∧ 9 < 10 := by decide
theorem wit_WideReadsAgreeWithBits_byte : ([0xA5, 0x3C] : List Byte)[1]? = some 0x3C := by decide
theorem wit_SizeReadsTheHeader_no_byte : State.reset.bitLen < 8 := by decide
theorem wit_SizeReadsTheHeader_tree_beyond : 8 ≤ p1Header.bitLen ∧ p1Header.bitLen < 8 * ((6 : Byte).toNat + 2) := by decide
theorem wit_SizeReadsTheHeader_accepted :
    40 = alphabetEnd p1Header.params.alphabetEnd 3 p1Header.bitLen ∧ 8 ≤ p1Header.bitLen ∧
    8 * ((3 : Byte).toNat + 2) ≤ p1Header.bitLen ∧ 40 ≤ p1Header.bitLen ∧ 8 ≤ 40 ∧ 40 % 8 = 0 := by decide
theorem wit_SizeReadsTheHeader_tree_empty :
    56 = alphabetEnd p1Header.params.alphabetEnd 5 p1Header.bitLen ∧ 8 * ((5 : Byte).toNat + 2) ≤ p1Header.bitLen ∧
    56 ≤ p1Header.bitLen := by decide
theorem wit_SizeReadsTheHeader_fetch :
    p1Header.phase = .header ∧ Memory.wf p1Header.bytes = true ∧ memRead p1Header.bytes 0 = some 3 := by decide
theorem wit_SizeReadsTheHeader_fetch_nothing :
    { State.reset with phase := .header }.phase = .header ∧ { State.reset with phase := .header }.bitLen < 8 := by decide
theorem wit_SymCollectsTheAlphabet_first : (0x62 : Byte) ∉ ({ p1Alphabet with sym := [0x61], cur := 16 } : State).sym := by
  decide
theorem wit_SymCollectsTheAlphabet_duplicate : (0x63 : Byte) ∈ ({ p1Boundary with cur := 32 } : State).sym := by decide
theorem wit_SymCollectsTheAlphabet_fetch :
    p1Alphabet.phase = .alphabet ∧ p1Alphabet.cur < p1Alphabet.aend ∧ p1Alphabet.cur % 8 = 0 ∧
    Memory.wf p1Alphabet.bytes = true ∧ memRead p1Alphabet.bytes (p1Alphabet.cur / 8) = some 0x61 := by decide
theorem wit_AlphabetExitGoesToTheTree :
    p1Boundary.host = [] ∧ p1Boundary.phase = .alphabet ∧ p1Boundary.cur = p1Boundary.aend := by decide
theorem wit_AlphabetPhaseIsExtractAlphabet :
    p1Alphabet.host = [] ∧ p1Alphabet.phase = .alphabet ∧ p1Alphabet.cur = 8 ∧ p1Alphabet.sym = [] ∧ 8 ≤ p1Alphabet.aend ∧
    p1Alphabet.aend ≤ p1Alphabet.bitLen ∧ p1Alphabet.aend % 8 = 0 ∧ Memory.wf p1Alphabet.bytes = true := by decide
theorem wit_ExtractAlphabetLaws_nonempty : 16 ≤ 40 := by decide
theorem wit_ExtractAlphabetLaws_longer : 40 ≤ 56 := by decide
theorem wit_ExtractAlphabetLaws_bytes :
    40 ≤ 8 * p1Bytes.length ∧ 0x63 ∈ extractAlphabet (bytesBits p1Bytes) 40 ∧ 1 ≤ 4 ∧ 8 * (4 + 1) ≤ 40 ∧
    p1Bytes[4]? = some 0x63 := by decide
theorem wit_ExtractAlphabetLaws_order :
    40 ≤ 8 * p1Bytes.length ∧ 1 ≤ 2 ∧ 8 * (2 + 1) ≤ 40 ∧ p1Bytes[2]? = some 0x62 ∧
    (∀ j, j ≤ 2 → 1 ≤ j → p1Bytes[j]? ≠ some 0x63) ∧ 0x63 ∈ extractAlphabet (bytesBits p1Bytes) 40 := by decide
theorem wit_NodeDescendsLeft : p1Root.phase = .tree ∧ memBit p1Root.bytes p1Root.cur = some false := by decide
theorem wit_LeafBindsItsPathOrCompletesTheTree_right : p1Left.sym[p1Left.leaf]? = some 0x61 ∧ p1Left.stk = [] :: [] ∧ [true] ≠ p1Left.path := by decide
theorem wit_LeafBindsItsPathOrCompletesTheTree_fetch : p1Left.phase = .tree ∧ memBit p1Left.bytes p1Left.cur = some true := by decide
theorem wit_LeafBindsItsPathOrCompletesTheTree_exhausted :
    ({ p1Last with leaf := 3 } : State).sym.length ≤ ({ p1Last with leaf := 3 } : State).leaf := by decide
theorem wit_LeafBindsItsPathOrCompletesTheTree_count :
    p1Last.sym[p1Last.leaf]? = some 0x63 ∧ p1Last.stk = [] ∧
    ({ p1Last with asize := 4 } : State).leaf + 1 ≠ ({ p1Last with asize := 4 } : State).asize.toNat := by decide
theorem wit_LeafBindsItsPathOrCompletesTheTree_done :
    p1Last.sym[p1Last.leaf]? = some 0x63 ∧ p1Last.stk = [] ∧ p1Last.leaf + 1 = p1Last.asize.toNat ∧
    (codeKeys p1Last.ct ++ [p1Last.path]).Pairwise (fun a b => ¬ a <+: b ∧ ¬ b <+: a) := by decide
/-- No run reaches this state (43 R167): the path bound is already a key's prefix (S2: `0`, `01`). -/
theorem wit_LeafBindsItsPathOrCompletesTheTree_prefix :
    p1Last.sym[p1Last.leaf]? = some 0x63 ∧ p1Last.stk = [] ∧ p1Last.leaf + 1 = p1Last.asize.toNat ∧
    ¬ (codeKeys p1Last.ct ++ [[false, true]]).Pairwise (fun a b => ¬ a <+: b ∧ ¬ b <+: a) := by decide
theorem wit_TreeOffTheEndRaises :
    p1Cut.host = [] ∧ p1Cut.phase = .tree ∧ p1Cut.bitLen ≤ p1Cut.cur := by decide
theorem wit_TreePhaseIsWalk_right :
    p1Left.host = [] ∧ p1Left.phase = .tree ∧ Memory.wf p1Left.bytes = true ∧ p1Left.bitLen < p1Left.cur + 16 ∧
    walk p1Left.bits p1Left.sym 16 p1Left.cur p1Left.path p1Left.leaf p1Left.ct = .ok [([false], 0x61)] 42 1 ∧
    p1Left.stk = [] :: [] := by decide
theorem wit_TreePhaseIsWalk_last :
    p1Root.bitLen < p1Root.cur + 17 ∧
    walk p1Root.bits p1Root.sym 17 p1Root.cur p1Root.path p1Root.leaf p1Root.ct = .ok p1Table 45 3 ∧
    p1Root.stk = [] := by decide
theorem wit_TreePhaseIsWalk_error :
    p1Cut.host = [] ∧ p1Cut.phase = .tree ∧ Memory.wf p1Cut.bytes = true ∧ p1Cut.bitLen < p1Cut.cur + 1 ∧
    walk p1Cut.bits p1Cut.sym 1 p1Cut.cur p1Cut.path p1Cut.leaf p1Cut.ct = .error .outOfRange 40 := by decide
theorem wit_WalkIsSelfDelimiting :
    walk [false, true, false, true, true] [0x61, 0x62, 0x63] 6 0 [] 0 [] = .ok p1Table 5 3 ∧ 4 < 5 - 0 := by decide
theorem wit_PadSkipsToTheMessage_plain :
    ([] : Bits) ∉ codeKeys p1Pad.ct ∧ p1Pad.teo ≤ p1Pad.bitLen ∧ p1Pad.phase = .pad := by decide
theorem wit_PadSkipsToTheMessage_degenerate : ([] : Bits) ∈ codeKeys [([], 0x41)] := by decide
theorem wit_CodeOutcomes : codeLookup p1Decode.ct [false] = some 0x61 ∧ codeLookup p1Decode.ct [true, true] = some 0x63 := by
  decide
theorem wit_CodeOfNoKeyOnlyShifts : [true] ∉ codeKeys p1Decode.ct := by decide
theorem wit_CodeSelectionByConfiguration_unfiltered :
    p1Decode.phase = .decode ∧ p1Decode.cur ≠ p1Decode.bitLen ∧ memBit p1Decode.bytes p1Decode.cur = some false ∧
    codeLookup p1Decode.ct (p1Decode.cand ++ [false]) = some 0x61 ∧ p1Decode.cfg.getLsbD 16 = false := by decide
/-- TERM = REM = 0x61: the terminator is the one chosen. -/
theorem wit_CodeSelectionByConfiguration_term :
    (0x00076161 : Word).getLsbD 16 = true ∧ (0x00076161 : Word).getLsbD 17 = true ∧
    (0x61 : Byte).toNat = (0x00076161 : Word).toNat % 256 := by decide
theorem wit_CodeSelectionByConfiguration_drop :
    (0x00076163 : Word).getLsbD 16 = true ∧
    ¬ ((0x00076163 : Word).getLsbD 17 = true ∧ (0x61 : Byte).toNat = (0x00076163 : Word).toNat % 256) ∧
    (0x00076163 : Word).getLsbD 18 = true ∧ (0x61 : Byte).toNat = (0x00076163 : Word).toNat / 256 % 256 := by decide
theorem wit_CodeSelectionByConfiguration_emit :
    p1Filtered.phase = .decode ∧ p1Filtered.cur ≠ p1Filtered.bitLen ∧ memBit p1Filtered.bytes p1Filtered.cur = some false ∧
    codeLookup p1Filtered.ct (p1Filtered.cand ++ [false]) = some 0x61 ∧ p1Filtered.cfg.getLsbD 16 = true ∧
    ¬ (p1Filtered.cfg.getLsbD 17 = true ∧ (0x61 : Byte).toNat = p1Filtered.cfg.toNat % 256) ∧
    ¬ (p1Filtered.cfg.getLsbD 18 = true ∧ (0x61 : Byte).toNat = p1Filtered.cfg.toNat / 256 % 256) := by decide
theorem wit_ShiftStepTakesOneBit_pending :
    p1Decode.host = [] ∧ p1Decode.phase = .decode ∧ ({ p1Decode with cur := 49 } : State).cur < p1Decode.bitLen ∧
    memBit p1Decode.bytes 49 = some true ∧ p1Decode.cand ++ [true] ∉ codeKeys p1Decode.ct := by decide
theorem wit_ShiftStepTakesOneBit_matched :
    p1Pending.host = [] ∧ p1Pending.phase = .decode ∧ p1Pending.cur < p1Pending.bitLen ∧
    memBit p1Pending.bytes p1Pending.cur = some false ∧
    codeLookup p1Pending.ct (p1Pending.cand ++ [false]) = some 0x62 := by decide
theorem wit_EosEndsTheMessage_done : p1End.cand = [] ∧ p1End.phase = .decode ∧ p1End.cur = p1End.bitLen := by decide
theorem wit_EosEndsTheMessage_truncation : ({ p1End with cand := [true] } : State).cand ≠ [] := by decide
theorem wit_MessagePhaseIsDecodeStream :
    p1Pad.host = [] ∧ p1Pad.phase = .pad ∧ Memory.wf p1Pad.bytes = true ∧ p1Pad.teo ≤ p1Pad.bitLen ∧ p1Pad.out = [] ∧
    p1Pad.err = .none ∧ p1Pad.termStop = false := by decide
/-- S7: `hi`, a carriage return, the terminator. -/
theorem wit_BitsAfterTheTerminatorAreIgnored_stream :
    decodeStream [false, false, false, true, true, false, true, true]
      [([false, false], 0x68), ([false, true], 0x69), ([true, false], 0x0D), ([true, true], 0xEF)] 0x00070DEF 0x0A =
      .ok [0x68, 0x69, 0x0A] true := by decide
theorem wit_BitsAfterTheTerminatorAreIgnored_step :
    (next? (step p1Pending)).isSome = true ∧ p1Pending.cfg.getLsbD 16 = false ∧ p1Pending.termStop = false := by decide
theorem wit_StepRunsTheDecodedInstruction_header :
    p1Header.host = [] ∧ p1Header.phase = .header ∧ 8 ≤ p1Header.bitLen ∧
    memSlice p1Header.bytes 0 8 = some (byteBits 3) ∧ decode p1Header.decodeContext (byteBits 3) = .instr (.size 3) [] := by
  decide
theorem wit_StepRunsTheDecodedInstruction_alphabet :
    p1Alphabet.host = [] ∧ p1Alphabet.phase = .alphabet ∧ p1Alphabet.cur < p1Alphabet.aend ∧
    memSlice p1Alphabet.bytes p1Alphabet.cur (p1Alphabet.cur + 8) = some (byteBits 0x61) ∧
    decode p1Alphabet.decodeContext (byteBits 0x61) = .instr (.sym 0x61) [] := by decide
theorem wit_StepRunsTheDecodedInstruction_tree :
    p1Left.host = [] ∧ p1Left.phase = .tree ∧ memBit p1Left.bytes p1Left.cur = some true ∧
    decode p1Left.decodeContext [true] = .instr .leaf [] := by decide
theorem wit_StepRunsTheDecodedInstruction_pad :
    p1Pad.host = [] ∧ p1Pad.phase = .pad ∧ decode p1Pad.decodeContext [] = .instr .pad [] := by decide
theorem wit_StepRunsTheDecodedInstruction_eos :
    p1End.host = [] ∧ p1End.phase = .decode ∧ p1End.cur = p1End.bitLen ∧ decode p1End.decodeContext [] = .instr .eos [] := by
  decide
theorem wit_StepRunsTheDecodedInstruction_code :
    p1Pending.host = [] ∧ p1Pending.phase = .decode ∧ p1Pending.cur ≠ p1Pending.bitLen ∧
    memBit p1Pending.bytes p1Pending.cur = some false ∧
    decode p1Pending.decodeContext [false] = .instr (.codeEmit [true, false]) [] := by decide
theorem wit_StepTakesTheHostMoveFirst_issue :
    ({ p1Root with host := [.issue .result, .wait] } : State).host = .issue .result :: [.wait] := by decide
theorem wit_StepTakesTheHostMoveFirst_wait :
    ({ p1Root with host := [.wait, .issue .reset] } : State).host = .wait :: [.issue .reset] := by decide
theorem wit_NothingHappensWhenIdle :
    (State.reset.host = [] ∧ State.reset.phase = .idle) ∧ (p1Done.host = [] ∧ p1Done.phase = .done) ∧
    (({ p1End with phase := .error } : State).host = [] ∧ ({ p1End with phase := .error } : State).phase = .error) := by decide
theorem wit_PhaseChangesTakeTheArrows :
    next? (step p1Boundary) = some p1Root ∧ p1Root.phase ≠ p1Boundary.phase := by decide
theorem wit_InputAndConfigurationStayDuringARun :
    next? (step { p1Root with host := [.issue (.load [0xFF])] }) = some p1Root ∧ p1Root.running = true ∧
    p1Root.host = [] := by decide
theorem wit_InputAndConfigurationStayDuringARun_no_reset :
    ∀ rest, ({ p1Root with host := [.issue (.load [0xFF])] } : State).host ≠ .issue .reset :: rest := by
  intro rest; simp
theorem wit_ErrorEntryIsPrecise :
    p1Cut.running = true ∧ (next? (step p1Cut)).map State.phase = some .error := by decide
theorem wit_ErrorEntryIsPrecise_pad :
    (next? (step { p1Pad with ct := [([], 0x41)] })).map (fun t => (t.phase, t.errPhase)) = some (.error, .decode) := by decide
theorem wit_ElementsLeaveTheInput : Instr.leaf.isElement = true ∧ next? (exec .leaf p1Last) = some p1Pad := by decide
theorem wit_ReadsChangeNoState_answer :
    (Instr.bit 10).isRead = true ∧ (next? (exec (.bit 10) b1)).isSome = true := by decide
theorem wit_ReadsChangeNoState_raise :
    (Instr.slice 9 8).isRead = true ∧ (next? (exec (.slice 9 8) b1)).map State.phase = some .error := by decide
theorem wit_TablesGrowInTheirOwnPhase :
    next? (step p1Last) = some p1Pad ∧ p1Last.running = true ∧ p1Pad.phase ≠ .idle ∧ p1Pad.phase ≠ .error ∧
    p1Pad.ct ≠ p1Last.ct := by decide
theorem wit_TablesGrowInTheirOwnPhase_symbol :
    (next? (step p1Alphabet)).map State.sym = some [0x61] ∧ p1Alphabet.sym = [] ∧ p1Alphabet.running = true := by decide
theorem wit_TablesGrowInTheirOwnPhase_output :
    (next? (step p1Decode)).map State.out = some [0x61] ∧ p1Decode.out = [] ∧ p1Decode.running = true := by decide

/-- P1 at the end of an alphabet region of body (b): the exit moves the cursor back to the tree (vector A8). -/
def p1Long : State := { p1Boundary with aend := 56, cur := 56 }

theorem p1Long_layout : LayoutInv p1Long := by constructor <;> decide
theorem wit_CursorMovesBackOnlyAtTheExit :
    next? (step p1Long) = some { p1Root with aend := 56 } ∧ p1Long.running = true ∧ p1Root.phase ≠ .idle ∧
    p1Root.cur < p1Long.cur := by decide
theorem wit_UnfilteredModeIgnoresTheOtherFields :
    p1Decode.host = [] ∧ p1Decode.cfg.getLsbD 16 = false ∧ (0x00066161 : Word).getLsbD 16 = false := by decide
theorem wit_StepReadsOnlyTheBitAtTheCursor_tree :
    p1Left.host = [] ∧ p1Left.phase = .tree ∧ (memOfBytes (List.replicate 7 0xFF)).length = p1Left.bytes.length ∧
    memBit (memOfBytes (List.replicate 7 0xFF)) p1Left.cur = memBit p1Left.bytes p1Left.cur := by decide
theorem wit_StepReadsOnlyTheBitAtTheCursor_pad :
    p1Pad.host = [] ∧ p1Pad.phase = .pad ∧ (memOfBytes (List.replicate 7 0xFF)).length = p1Pad.bytes.length := by decide
theorem wit_StepReadsOnlyTheBitAtTheCursor_decode :
    p1Decode.host = [] ∧ p1Decode.phase = .decode ∧ (memOfBytes (List.replicate 7 0)).length = p1Decode.bytes.length ∧
    memBit (memOfBytes (List.replicate 7 0)) p1Decode.cur = memBit p1Decode.bytes p1Decode.cur := by decide

theorem wit_StepKeepsTheForm : FormInv p1Left ∧ (next? (step p1Left)).isSome = true := ⟨p1Left_form, by decide⟩

theorem p1Pending_record : RecordInv p1Pending := by constructor <;> decide
theorem wit_StepKeepsTheRecord : RecordInv p1Pending ∧ (next? (step p1Pending)).isSome = true := ⟨p1Pending_record, by decide⟩
theorem wit_StepKeepsTheLayout : LayoutInv p1Left ∧ (next? (step p1Left)).isSome = true := ⟨p1Left_layout, by decide⟩
theorem wit_StepKeepsTheTables : TablesInv p1Left ∧ (next? (step p1Left)).isSome = true := ⟨p1Left_tables, by decide⟩
theorem wit_StepKeepsTheTables_message : TablesInv p1Pending ∧ (next? (step p1Pending)).isSome = true :=
  ⟨p1Pending_tables, by decide⟩
theorem wit_InvalidPrefixCodeIsNeverRaised :
    TablesInv p1Left ∧ p1Left.err ≠ .invalidPrefixCode ∧ (next? (step p1Left)).isSome = true :=
  ⟨p1Left_tables, by decide, by decide⟩
theorem wit_FinishedTableIsAFullCode_pad : TablesInv p1Pad ∧ (p1Pad.phase = .pad ∨ p1Pad.phase = .decode) :=
  ⟨p1Pad_tables, by decide⟩
theorem wit_FinishedTableIsAFullCode_decode : TablesInv p1Pending ∧ (p1Pending.phase = .pad ∨ p1Pending.phase = .decode) :=
  ⟨p1Pending_tables, by decide⟩
theorem wit_FinishedTableIsAFullCode_keys :
    [false] ∈ codeKeys p1Pad.ct ∧ [true, false] ∈ codeKeys p1Pad.ct ∧ [false] ≠ [true, false] := by decide
theorem wit_CandidateIsShort : TablesInv p1Pending ∧ p1Pending.phase = .decode := ⟨p1Pending_tables, by decide⟩
theorem wit_ErrorKindsByPhase :
    FormInv p1Cut ∧ LayoutInv p1Cut ∧ TablesInv p1Cut ∧ p1Cut.running = true ∧
    (next? (step p1Cut)).map State.phase = some .error :=
  ⟨p1Cut_form, p1Cut_layout, p1Cut_tables, by decide, by decide⟩
theorem wit_EveryOperationEnds :
    (loaded p1Bytes).host = [] ∧ (loaded p1Bytes).running = false ∧ Memory.wf (loaded p1Bytes).bytes = true ∧
    next? (exec .start (loaded p1Bytes)) = some p1Header := by decide
theorem wit_MachineComputesDecode :
    (loaded p1Bytes).host = [] ∧ (loaded p1Bytes).running = false ∧ (loaded p1Bytes).bytes = memOfBytes p1Bytes ∧
    next? (exec .start (loaded p1Bytes)) = some p1Header := by decide
theorem wit_DecodeOfEncode_size :
    (Instr.size 255).wellFormed = true ∧ encode 0 (.size 255) = some (List.replicate 8 true) ∧
    selects (tableContext .header) (.size 255) [true] := ⟨by decide, by decide, rfl⟩
theorem wit_DecodeOfEncode_pad :
    Instr.pad.wellFormed = true ∧ encode 7 .pad = some (List.replicate 7 false) ∧
    selects { tableContext .pad with padLen := 7 } .pad [true] := ⟨by decide, by decide, rfl⟩
theorem wit_DecodeOfEncode_code :
    (Instr.codeEmit [true, false]).wellFormed = true ∧ encode 0 (.codeEmit [true, false]) = some [true, false] ∧
    selects { tableContext .decode with ct := p1Table } (.codeEmit [true, false]) [true] := by
  refine ⟨by decide, by decide, rfl, rfl, fun p hp hne => ?_, 0x62, by decide, by decide⟩
  match p, hp, hne with
  | [], _, _ => decide
  | [b], hp, _ => obtain ⟨rfl, -⟩ := List.cons_prefix_cons.mp hp; decide
  | b :: c :: q, hp, hne => simp [List.cons_prefix_cons] at hp; simp [hp] at hne
theorem wit_DecodeOfEncode_eos :
    Instr.eos.wellFormed = true ∧ encode 0 .eos = some [] ∧ selects (tableContext .decode) .eos [] :=
  ⟨by decide, by decide, rfl, rfl⟩
theorem wit_EncodeOfDecode_element :
    (tableContext .tree).cand = [] ∧ (tableContext .tree).phase ≠ .pad ∧
    decode (tableContext .tree) [true, false] = .instr .leaf [false] := by decide
theorem wit_EncodeOfDecode_code :
    ({ tableContext .decode with ct := p1Table } : DecodeContext).cand = [] ∧
    decode { tableContext .decode with ct := p1Table } [true, true, false] = .instr (.codeEmit [true, true]) [false] := by
  decide

end Sys2Proof.Tests
end

/-!
The host commands RESET and START (10 R45, R46; 45 R214, R217, R219): one rule per command and case, then the statements
read off the field lemmas of `resetBlock` and `startOperation`.
-/
namespace Sys2Proof.Machine

/-! ### What the commands answer -/

@[simp] theorem exec_reset (s : State) : exec .reset s = .next (resetBlock s) := rfl

theorem exec_start_of_not_running {s : State} (h : s.running = false) : exec .start s = .next (startOperation s) := by
  simp [exec, execStart, h]

theorem exec_start_of_running {s : State} (h : s.running = true) : exec .start s = .next s := by
  simp [exec, execStart, h]

/-! ### What is read from the empty input -/

@[simp] theorem resetBlock_bitLen (s : State) : (resetBlock s).bitLen = 0 := by
  simp [State.bitLen, memBitLen]

@[simp] theorem resetBlock_bits (s : State) : (resetBlock s).bits = [] := by
  simp [State.bits, bytesBits]

/-! ### The statements -/

/-- Settles O1: RESET answers `resetBlock s`, whose field lemmas are the reset table of 10 R45. -/
theorem resetGivesEveryElementItsValue : Obligations.ResetGivesEveryElementItsValue := by
  intro s
  exact ⟨resetBlock s, exec_reset s, by simp⟩

/-- Settles O5: a case per value of `running`; not running, the field lemmas of `startOperation` are 10 R46. -/
theorem startClearsTheOperation : Obligations.StartClearsTheOperation := by
  constructor
  · intro s hstopped
    exact ⟨startOperation s, exec_start_of_not_running hstopped, by simp⟩
  · intro s hrunning
    exact exec_start_of_running hrunning

end Sys2Proof.Machine

/-!
Which CODE a matched key is under CFG, and what it does (30 R99; 44 R186 to R190): one rule per line of R99, one per outcome,
then the statement, which pairs the line chosen with its outcome.
-/
namespace Sys2Proof.Machine

/-! ### The symbol fields of CFG as numbers (10 R41) -/

theorem eq_cfgTerm_iff (cfg : Word) (x : Byte) : x = cfgTerm cfg ↔ x.toNat = cfg.toNat % 256 := by
  simp [cfgTerm, ← BitVec.toNat_inj]

theorem eq_cfgRem_iff (cfg : Word) (x : Byte) : x = cfgRem cfg ↔ x.toNat = cfg.toNat / 256 % 256 := by
  simp [cfgRem, ← BitVec.toNat_inj, Nat.shiftRight_eq_div_pow]

/-! ### The lines of 30 R99 -/

theorem classifyCode_of_unfiltered {cfg : Word} (hmode : cfgMode cfg = false) (x : Byte) (k : Bits) :
    classifyCode cfg x k = .codeEmit k := by
  simp [classifyCode, hmode]

theorem classifyCode_of_term {cfg : Word} {x : Byte} (hmode : cfgMode cfg = true)
    (hterm : cfgTermEn cfg = true ∧ x = cfgTerm cfg) (k : Bits) : classifyCode cfg x k = .codeTerm k := by
  simp [classifyCode, hmode, hterm]

theorem classifyCode_of_rem {cfg : Word} {x : Byte} (hmode : cfgMode cfg = true)
    (hterm : ¬ (cfgTermEn cfg = true ∧ x = cfgTerm cfg)) (hrem : cfgRemEn cfg = true ∧ x = cfgRem cfg) (k : Bits) :
    classifyCode cfg x k = .codeDrop k := by
  rw [classifyCode, if_neg (by simp [hmode]), if_neg hterm, if_pos hrem]

theorem classifyCode_of_neither {cfg : Word} {x : Byte}
    (hterm : ¬ (cfgTermEn cfg = true ∧ x = cfgTerm cfg)) (hrem : ¬ (cfgRemEn cfg = true ∧ x = cfgRem cfg)) (k : Bits) :
    classifyCode cfg x k = .codeEmit k := by
  rw [classifyCode, if_neg hterm, if_neg hrem, ite_self]

/-! ### The outcomes of a matched key -/

theorem exec_codeEmit_of_lookup {s : State} {k : Bits} {x : Byte} (hk : codeLookup s.ct k = some x) :
    exec (.codeEmit k) s = .next { shiftMatched s with out := s.out ++ [x] } := by
  simp [exec, execCodeEmit, codeSymbol, hk]

theorem exec_codeTerm_of_lookup {s : State} {k : Bits} {x : Byte} (hk : codeLookup s.ct k = some x) :
    exec (.codeTerm k) s =
      .next { shiftMatched s with out := s.out ++ [s.params.newline], termStop := true, phase := .done } := by
  simp [exec, execCodeTerm, codeSymbol, hk]

theorem exec_codeDrop_of_lookup {s : State} {k : Bits} {x : Byte} (hk : codeLookup s.ct k = some x) :
    exec (.codeDrop k) s = .next (shiftMatched s) := by
  simp [exec, execCodeDrop, codeSymbol, hk]

/-- A message bit that completes a key fetches the CODE that CFG selects for its symbol (44 R183). -/
theorem fetch_decode_of_lookup {s : State} {b : Bool} {x : Byte} (hp : s.phase = .decode) (hc : s.cur ≠ s.bitLen)
    (hb : memBit s.bytes s.cur = some b) (hk : codeLookup s.ct (s.cand ++ [b]) = some x) :
    fetch s = .element (classifyCode s.cfg x (s.cand ++ [b])) := by
  simp [fetch_decode hp, hc, hb, hk]

/-! ### The statement -/

/-- Settles O28: the fetch is `classifyCode`, which takes the line of 30 R99 whose condition holds; the effect is the
outcome's own rule. -/
theorem codeSelectionByConfiguration : Obligations.CodeSelectionByConfiguration := by
  intro s b x hp hc hb hk
  have hfetch := fetch_decode_of_lookup hp hc hb hk
  rw [← eq_cfgTerm_iff, ← eq_cfgRem_iff]
  refine ⟨fun hmode => ?unfiltered, fun hmode hen hx => ?term, fun hmode hterm hen hx => ?drop,
    fun _ hterm hrem => ?emit⟩
  case unfiltered =>
    exact ⟨by rw [hfetch, classifyCode_of_unfiltered hmode], exec_codeEmit_of_lookup hk⟩
  case term =>
    exact ⟨by rw [hfetch, classifyCode_of_term hmode ⟨hen, hx⟩], exec_codeTerm_of_lookup hk⟩
  case drop =>
    exact ⟨by rw [hfetch, classifyCode_of_rem hmode hterm ⟨hen, hx⟩], exec_codeDrop_of_lookup hk⟩
  case emit =>
    exact ⟨by rw [hfetch, classifyCode_of_neither hterm hrem], exec_codeEmit_of_lookup hk⟩

end Sys2Proof.Machine

/-!
The host command LOAD and the bits of the memory it leaves (40 R121; 45 R215, R219): one rule per case of the command, then
the length and the bits of `memOfBytes`.
-/
namespace Sys2Proof.Machine

/-! ### What the command answers -/

theorem exec_load_of_not_running (bs : List Byte) {s : State} (h : s.running = false) :
    exec (.load bs) s = .next { s with bytes := memOfBytes bs } := by
  simp [exec, execLoad, h]

theorem exec_load_of_running (bs : List Byte) {s : State} (h : s.running = true) : exec (.load bs) s = .next s := by
  simp [exec, execLoad, h]

/-! ### The loaded bits -/

@[simp] theorem memBitLen_memOfBytes (bs : List Byte) : memBitLen (memOfBytes bs) = 8 * bs.length := by
  simp [memBitLen]

/-- Counted from the most significant end, bit `k` of a byte has weight `2 ^ (7 - k)` (20 R61). -/
theorem byte_getMsbD_eq_decide (b : Byte) {k : Nat} (hk : k ≤ 7) :
    b.getMsbD k = decide (b.toNat / 2 ^ (7 - k) % 2 = 1) := by
  have hlt : k < 8 := by omega
  rw [BitVec.getMsbD_eq_getLsbD, ← BitVec.testBit_toNat, Nat.testBit_eq_decide_div_mod_eq]
  simp [hlt]

/-- Bit `8 j + k` of a loaded byte sequence is bit `k` of its byte `j`, most significant first (20 R62). -/
theorem memBit_memOfBytes {bs : List Byte} {j k : Nat} {b : Byte} (hb : bs[j]? = some b) (hk : k ≤ 7) :
    memBit (memOfBytes bs) (8 * j + k) = some (b.getMsbD k) := by
  obtain ⟨hj, -⟩ := List.getElem?_eq_some_iff.mp hb
  have hbyte : (8 * j + k) / 8 = j := by omega
  have hbit : (8 * j + k) % 8 = k := by omega
  have hin : 8 * j + k < memBitLen (memOfBytes bs) := by rw [memBitLen_memOfBytes]; omega
  have hread : memRead (memOfBytes bs) ((8 * j + k) / 8) = some b := by rw [memRead_memOfBytes, hbyte, hb]
  rw [memBit_eq_some hin hread, hbit]

/-! ### The statement -/

/-- Settles O3: a case per value of `running`, then the length and the bits of the memory LOAD leaves. -/
theorem loadReplacesTheInput : Obligations.LoadReplacesTheInput := by
  refine ⟨fun bs s hstopped => ?stopped, fun bs s hrunning => ?running, memBitLen_memOfBytes,
    fun bs j k b hb hk => ?bits⟩
  case stopped => exact exec_load_of_not_running bs hstopped
  case running => exact exec_load_of_running bs hrunning
  case bits => rw [memBit_memOfBytes hb hk, byte_getMsbD_eq_decide b hk]

end Sys2Proof.Machine

/-!
HeaderParser (41 R141 to R144): the two offsets of the header as numbers, one rule per check of SIZE, the byte-aligned slice
that SIZE is fetched from, then the statements.
-/
namespace Sys2Proof.Machine

/-! ### The two offsets -/

theorem treeStart_eq (n : Byte) : treeStart n = 8 * (n.toNat + 2) := rfl

/-- Body (a) of `AlphabetEnd` is the tree start (41 R143). -/
@[simp] theorem alphabetEnd_tso (n : Byte) (len : Nat) : alphabetEnd .tso n len = treeStart n := rfl

/-- Body (b) of `AlphabetEnd` (41 R143). -/
theorem alphabetEnd_tsoTimes8 (n : Byte) (len : Nat) :
    alphabetEnd .tsoTimes8 n len = min (64 * (n.toNat + 2)) len := rfl

theorem le_treeStart (n : Byte) : 16 ≤ treeStart n := by
  rw [treeStart_eq]; omega

theorem treeStart_le (n : Byte) : treeStart n ≤ 2056 := by
  have hbyte : n.toNat < 256 := n.isLt
  rw [treeStart_eq]; omega

@[simp] theorem treeStart_mod_eight (n : Byte) : treeStart n % 8 = 0 := by
  rw [treeStart_eq]; omega

/-! ### The checks of SIZE, in order -/

theorem boundaryOk_iff (aend len : Nat) :
    boundaryOk aend len = true ↔ ¬ (len < aend ∨ aend < 8 ∨ aend % 8 ≠ 0) := by
  simp [boundaryOk, and_assoc]

section
variable {s : State} {n : Byte}

theorem exec_size_of_no_byte (hlen : s.bitLen < 8) : exec (.size n) s = .next (raise .outOfRange 0 s) := by
  simp [exec, execSize, hlen]

theorem exec_size_of_tree_beyond (hlen : 8 ≤ s.bitLen) (htree : s.bitLen < treeStart n) :
    exec (.size n) s = .next (raise .outOfRange (treeStart n) s) := by
  simp [exec, execSize, hlen.not_gt, htree]

/-- The last check, once the header byte and the tree start are inside the input; `treeStart n` is at least 16, so the
first of these needs no premise. -/
theorem exec_size_of_tree_inside (htree : treeStart n ≤ s.bitLen) :
    exec (.size n) s = .next (
      if boundaryOk (alphabetEnd s.params.alphabetEnd n s.bitLen) s.bitLen then sizeAccept n s
      else raise .outOfRange (alphabetEnd s.params.alphabetEnd n s.bitLen) s) := by
  have hlen : ¬ s.bitLen < 8 := by have := le_treeStart n; omega
  simp only [exec, execSize, if_neg hlen, if_neg htree.not_gt]

theorem exec_size_of_boundary_bad (htree : treeStart n ≤ s.bitLen)
    (hbad : ¬ boundaryOk (alphabetEnd s.params.alphabetEnd n s.bitLen) s.bitLen = true) :
    exec (.size n) s = .next (raise .outOfRange (alphabetEnd s.params.alphabetEnd n s.bitLen) s) := by
  rw [exec_size_of_tree_inside htree, if_neg hbad]

theorem exec_size_of_boundary_ok (htree : treeStart n ≤ s.bitLen)
    (hok : boundaryOk (alphabetEnd s.params.alphabetEnd n s.bitLen) s.bitLen = true) :
    exec (.size n) s = .next (sizeAccept n s) := by
  rw [exec_size_of_tree_inside htree, if_pos hok]

end

/-! ### The fetch of SIZE -/

/-- Bit `j` of a byte's string is the byte's bit `j`, most significant first (20 R61). -/
theorem byteBits_getElem? (b : Byte) {j : Nat} (hj : j < 8) : (byteBits b)[j]? = some (b.getMsbD j) := by
  simp [byteBits, hj]

/-- A byte-aligned 8-bit slice of a canonical memory is the byte that stands there (20 R62, R64). -/
theorem memSlice_byte {m : Memory} (hwf : Memory.wf m = true) {k : Nat} {b : Byte} (hb : memRead m k = some b) :
    memSlice m (8 * k) (8 * k + 8) = some (byteBits b) := by
  have hk : k < m.length := (memRead_isSome m hwf k).mp (by simp [hb])
  have hlen : memBitLen m = 8 * m.length := rfl
  obtain ⟨w, hw⟩ := memSlice_isSome hwf (lo := 8 * k) (hi := 8 * k + 8) (by omega) (by omega)
  obtain ⟨-, -, hwlen, hbits⟩ := memSlice_eq_some hw
  rw [hw]
  congr 1
  refine List.ext_getElem? fun j => ?_
  by_cases hj : j < 8
  · have hread : memRead m ((8 * k + j) / 8) = some b := by
      rw [show (8 * k + j) / 8 = k by omega, hb]
    rw [hbits j (by omega), memBit_eq_some (by omega) hread, byteBits_getElem? b hj,
      show (8 * k + j) % 8 = j by omega]
  · rw [List.getElem?_eq_none (by omega), List.getElem?_eq_none (by simpa using hj)]

theorem fetch_header_of_byte {s : State} {n : Byte} (hp : s.phase = .header) (hwf : Memory.wf s.bytes = true)
    (hn : memRead s.bytes 0 = some n) : fetch s = .element (.size n) := by
  have hslice : memSlice s.bytes 0 8 = some (byteBits n) := memSlice_byte hwf hn
  have hlen : ¬ s.bitLen < 8 := by
    obtain ⟨-, hle, -⟩ := memSlice_eq_some hslice
    exact hle.not_gt
  simp [fetch_header hp, hlen, hslice, bitsToNat_byteBits]

theorem fetch_header_of_no_byte {s : State} (hp : s.phase = .header) (hlen : s.bitLen < 8) :
    fetch s = .outOfRange 0 := by
  simp [fetch_header hp, hlen]

/-! ### The statements -/

/-- Settles O14: one rule of SIZE per check; the third clause splits on the boundary's check, the fourth is its accepted
case. -/
theorem sizeReadsTheHeader : Obligations.SizeReadsTheHeader := by
  intro s n
  refine ⟨fun hlen => ?noByte, fun hlen htree => ?treeBeyond, ?boundary, ?accepted, fun hp hwf hn => ?fetchByte,
    fun hp hlen => ?fetchNothing⟩
  case noByte => exact exec_size_of_no_byte hlen
  case treeBeyond => exact exec_size_of_tree_beyond hlen htree
  case boundary =>
    rintro e rfl - htree
    split
    next hbad => exact exec_size_of_boundary_bad htree fun hok => (boundaryOk_iff _ _).mp hok hbad
    next hgood => exact exec_size_of_boundary_ok htree ((boundaryOk_iff _ _).mpr hgood)
  case accepted =>
    rintro e rfl - htree hle hge hmod
    exact exec_size_of_boundary_ok htree ((boundaryOk_iff _ _).mpr (by omega))
  case fetchByte => exact fetch_header_of_byte hp hwf hn
  case fetchNothing => exact fetch_header_of_no_byte hp hlen

/-- Settles O15: the bounds of `treeStart` from the range of a byte, and the two bodies of `AlphabetEnd`. -/
theorem headerOffsets : Obligations.HeaderOffsets := by
  intro n len
  exact ⟨treeStart_eq n, le_treeStart n, treeStart_le n, treeStart_mod_eight n, treeStart_eq 255,
    alphabetEnd_tso n len, alphabetEnd_tsoTimes8 n len⟩

end Sys2Proof.Machine

/-!
AlphabetExtractor (42 R151, R152): one rule of SYM per case of membership, the fetch of SYM from the byte at the cursor, the
exit at the boundary, then the statements.
-/
namespace Sys2Proof.Machine

/-! ### What SYM does -/

theorem symInsert_of_notMem {sym : List Byte} {g : Byte} (hg : g ∉ sym) : symInsert sym g = sym ++ [g] := if_neg hg

theorem symInsert_of_mem {sym : List Byte} {g : Byte} (hg : g ∈ sym) : symInsert sym g = sym := if_pos hg

@[simp] theorem exec_sym (g : Byte) (s : State) :
    exec (.sym g) s = .next { s with sym := symInsert s.sym g, cur := s.cur + 8 } := rfl

theorem exec_sym_of_notMem {g : Byte} {s : State} (hg : g ∉ s.sym) :
    exec (.sym g) s = .next { s with sym := s.sym ++ [g], cur := s.cur + 8 } := by
  rw [exec_sym, symInsert_of_notMem hg]

theorem exec_sym_of_mem {g : Byte} {s : State} (hg : g ∈ s.sym) :
    exec (.sym g) s = .next { s with cur := s.cur + 8 } := by
  rw [exec_sym, symInsert_of_mem hg]

/-! ### What the ALPHABET phase fetches -/

/-- Below the boundary and on a byte of the input, the slice SYM is decoded from is that byte (20 R62). -/
theorem fetch_alphabet_of_byte {s : State} {g : Byte} (hp : s.phase = .alphabet) (hc : s.cur < s.aend)
    (halign : s.cur % 8 = 0) (hwf : Memory.wf s.bytes = true) (hg : memRead s.bytes (s.cur / 8) = some g) :
    fetch s = .element (.sym g) := by
  have hslice : memSlice s.bytes s.cur (s.cur + 8) = some (byteBits g) := by
    have hcur : 8 * (s.cur / 8) = s.cur := by omega
    simpa only [hcur] using memSlice_byte hwf hg
  simp [fetch_alphabet hp, hc, hslice, bitsToNat_byteBits]

theorem fetch_alphabet_of_boundary {s : State} (hp : s.phase = .alphabet) (hc : s.aend ≤ s.cur) :
    fetch s = .alphabetExit := by
  rw [fetch_alphabet hp, if_neg hc.not_gt]

theorem sequencerStep_of_alphabetExit {s : State} (hf : fetch s = .alphabetExit) :
    sequencerStep s = .next (alphabetExit s) := by
  rw [sequencerStep, hf, runFetched]

/-! ### The statements -/

/-- Settles O16: SYM by membership, and its fetch from the byte-aligned slice at the cursor. -/
theorem symCollectsTheAlphabet : Obligations.SymCollectsTheAlphabet := by
  intro s g
  refine ⟨fun hg => ?first, fun hg => ?duplicate, fun hp hc halign hwf hg => ?fetchByte⟩
  case first => exact exec_sym_of_notMem hg
  case duplicate => exact exec_sym_of_mem hg
  case fetchByte => exact fetch_alphabet_of_byte hp hc halign hwf hg

/-- Settles O17: with no host move the step is the sequencer's, which at the boundary fetches the exit. -/
theorem alphabetExitGoesToTheTree : Obligations.AlphabetExitGoesToTheTree := by
  intro s hhost hp hc
  have hfetch : fetch s = .alphabetExit := fetch_alphabet_of_boundary hp hc.ge
  rw [step_no_host hhost, sequencerStep_of_alphabetExit hfetch, alphabetExit]

end Sys2Proof.Machine

/-!
TreeReconstructor (43 R162 to R167, R174): what NODE does, one rule of LEAF per case of an unused symbol, a waiting node and
the checks of tree completion, the fetch by the bit at the cursor, then the statements.
-/
namespace Sys2Proof.Machine

/-! ### What NODE and LEAF do -/

@[simp] theorem exec_node (s : State) :
    exec .node s = .next { s with stk := s.path :: s.stk, path := s.path ++ [false], cur := s.cur + 1 } := rfl

theorem exec_leaf_of_exhausted {s : State} (hused : s.sym.length ≤ s.leaf) :
    exec .leaf s = .next (raise .leafMismatch s.cur s) := by
  have hx : s.sym[s.leaf]? = none := List.getElem?_eq_none hused
  simp [exec, execLeaf, leafSymbol, hx]

theorem exec_leaf_of_waiting {s : State} {x : Byte} {q : Bits} {rest : List Bits} (hx : s.sym[s.leaf]? = some x)
    (hq : s.stk = q :: rest) :
    exec .leaf s = .next { leafRecord x s with path := q ++ [true], stk := rest } := by
  simp [exec, execLeaf, leafSymbol, hx, hq]

theorem exec_leaf_of_none_waiting {s : State} {x : Byte} (hx : s.sym[s.leaf]? = some x) (hq : s.stk = []) :
    exec .leaf s = .next (completeTree s (leafRecord x s)) := by
  simp [exec, execLeaf, leafSymbol, hx, hq]

/-- The map update of 00 R11 that LEAF makes: its path is bound to `x`, every other key as before. -/
theorem leafRecord_binds_path (x : Byte) (s : State) :
    codeLookup (leafRecord x s).ct s.path = some x ∧
      ∀ k, k ≠ s.path → codeLookup (leafRecord x s).ct k = codeLookup s.ct k :=
  ⟨codeLookup_codeInsert_self s.ct s.path x, fun k hk => codeLookup_codeInsert_of_ne s.ct s.path k x hk⟩

/-! ### The checks of tree completion, in order -/

section
variable {s r : State}

theorem completeTree_of_count_bad (hcount : r.leaf ≠ r.asize.toNat) :
    completeTree s r = raise .leafMismatch r.cur s := if_pos hcount

theorem completeTree_of_prefixFree (hcount : r.leaf = r.asize.toNat) (hfree : prefixFree r.ct = true) :
    completeTree s r = { r with teo := r.cur, phase := .pad } := by
  rw [completeTree, if_neg (not_not.mpr hcount), if_pos hfree]

theorem completeTree_of_not_prefixFree (hcount : r.leaf = r.asize.toNat) (hfree : ¬ prefixFree r.ct = true) :
    completeTree s r = raise .invalidPrefixCode r.cur s := by
  rw [completeTree, if_neg (not_not.mpr hcount), if_neg hfree]

end

/-- The keys checked at completion are those recorded before and the path of the last leaf (43 R167). -/
theorem prefixFree_leafRecord_iff (x : Byte) (s : State) :
    prefixFree (leafRecord x s).ct = true ↔
      (codeKeys s.ct ++ [s.path]).Pairwise (fun a b => ¬ a <+: b ∧ ¬ b <+: a) := by
  rw [leafRecord_ct, prefixFree_iff, codeInsert_keys]

/-! ### What the TREE phase fetches -/

section
variable {s : State}

theorem fetch_tree_of_false (hp : s.phase = .tree) (hb : memBit s.bytes s.cur = some false) :
    fetch s = .element .node := by
  rw [fetch_tree hp, hb]

theorem fetch_tree_of_true (hp : s.phase = .tree) (hb : memBit s.bytes s.cur = some true) :
    fetch s = .element .leaf := by
  rw [fetch_tree hp, hb]

theorem fetch_tree_of_end (hp : s.phase = .tree) (hend : s.bitLen ≤ s.cur) : fetch s = .outOfRange s.cur := by
  rw [fetch_tree hp, memBit_none_of_le s.bytes s.cur hend]

theorem sequencerStep_of_outOfRange {pos : Nat} (hf : fetch s = .outOfRange pos) :
    sequencerStep s = .next (raise .outOfRange pos s) := by
  rw [sequencerStep, hf, runFetched]

end

/-! ### The statements -/

/-- Settles O21: LEAF by unused symbol and waiting node; with none waiting, by the checks of tree completion in order. -/
theorem leafBindsItsPathOrCompletesTheTree : Obligations.LeafBindsItsPathOrCompletesTheTree := by
  refine ⟨fun s hused => ?exhausted, fun s x q rest hx hq => ?right, fun s x hx hq => ?last,
    fun s hp hb => fetch_tree_of_true hp hb⟩
  case exhausted => exact exec_leaf_of_exhausted hused
  case right => exact ⟨(leafRecord x s).ct, exec_leaf_of_waiting hx hq, leafRecord_binds_path x s⟩
  case last =>
    rw [exec_leaf_of_none_waiting hx hq, ← prefixFree_leafRecord_iff x s]
    refine ⟨fun hcount => ?countBad, fun hcount hfree => ?completed, fun hcount hfree => ?notPrefixFree⟩
    case countBad => rw [completeTree_of_count_bad hcount]; rfl
    case completed =>
      refine ⟨(leafRecord x s).ct, ?_, leafRecord_binds_path x s⟩
      rw [completeTree_of_prefixFree hcount hfree]; rfl
    case notPrefixFree => rw [completeTree_of_not_prefixFree hcount hfree]; rfl

/-- Settles O20: the rule of NODE and its fetch on a 0 bit. -/
theorem nodeDescendsLeft : Obligations.NodeDescendsLeft := by
  intro s
  exact ⟨exec_node s, fun hp hb => fetch_tree_of_false hp hb⟩

/-- Settles O22: with no host move the step is the sequencer's, whose access at the cursor leaves the input. -/
theorem treeOffTheEndRaises : Obligations.TreeOffTheEndRaises := by
  intro s hhost hp hend
  have hfetch : fetch s = .outOfRange s.cur := fetch_tree_of_end hp hend
  rw [step_no_host hhost, sequencerStep_of_outOfRange hfetch, raise, hp, raiseIn]

end Sys2Proof.Machine

/-!
StreamDecoder (44 R181 to R183, R191, R192): one rule of PAD per membership of the empty key and the arithmetic of the
message start, one rule of EOS per candidate left over, the shift step with and without a match, then the statements.
-/
namespace Sys2Proof.Machine

/-! ### Keys and the lookup -/

theorem codeLookup_of_mem_codeKeys {ct : CodeTable} {k : Bits} (hk : k ∈ codeKeys ct) :
    ∃ x, codeLookup ct k = some x :=
  Option.ne_none_iff_exists'.mp fun hnone => (codeLookup_eq_none ct k).mp hnone hk

/-! ### What PAD does -/

theorem exec_pad_of_no_empty_key {s : State} (hk : ([] : Bits) ∉ codeKeys s.ct) :
    exec .pad s = .next
      { s with padLen := padLength s, mso := s.teo + padLength s, cur := s.teo + padLength s, phase := .decode,
               cand := [] } := by
  have hlookup : codeLookup s.ct [] = none := (codeLookup_eq_none s.ct []).mpr hk
  simp [exec, execPad, codeSymbol, hlookup]

theorem exec_pad_of_empty_key {s : State} (hk : ([] : Bits) ∈ codeKeys s.ct) :
    exec .pad s = .next (raiseIn .decode .degenerateTree (s.teo + padLength s) s) := by
  obtain ⟨x, hlookup⟩ := codeLookup_of_mem_codeKeys hk
  simp [exec, execPad, codeSymbol, hlookup]

/-- The padding takes a tree end inside the input to a byte boundary inside the input, because `L` is a multiple of 8. -/
theorem messageStart_le_and_mod_eight {s : State} (hteo : s.teo ≤ s.bitLen) :
    s.teo + padLength s ≤ s.bitLen ∧ (s.teo + padLength s) % 8 = 0 := by
  have hlen : s.bitLen = 8 * s.bytes.length := rfl
  rw [padLength]
  omega

/-! ### What EOS does -/

theorem exec_eos_of_no_candidate {s : State} (hcand : s.cand = []) : exec .eos s = .next { s with phase := .done } := by
  simp [exec, execEos, hcand]

theorem exec_eos_of_candidate {s : State} (hcand : s.cand ≠ []) :
    exec .eos s = .next (raise .truncation (s.bitLen - s.cand.length) s) := by
  simp [exec, execEos, hcand]

theorem fetch_decode_of_end {s : State} (hp : s.phase = .decode) (hend : s.cur = s.bitLen) :
    fetch s = .element .eos := by
  rw [fetch_decode hp, if_pos hend]

/-! ### The shift step -/

/-- A message bit that completes no key extends the candidate (44 R183). -/
theorem fetch_decode_of_notMem {s : State} {b : Bool} (hp : s.phase = .decode) (hc : s.cur ≠ s.bitLen)
    (hb : memBit s.bytes s.cur = some b) (hk : s.cand ++ [b] ∉ codeKeys s.ct) :
    fetch s = .shift (s.cand ++ [b]) := by
  have hlookup : codeLookup s.ct (s.cand ++ [b]) = none := (codeLookup_eq_none _ _).mpr hk
  simp [fetch_decode hp, hc, hb, hlookup]

theorem sequencerStep_of_shift {s : State} {c : Bits} (hf : fetch s = .shift c) :
    sequencerStep s = .next (shiftPending c s) := by
  rw [sequencerStep, hf, runFetched]

theorem sequencerStep_of_element {s : State} {i : Instr} (hf : fetch s = .element i) :
    sequencerStep s = exec i s := by
  rw [sequencerStep, hf, runFetched]

/-- The frame of a matched CODE, whichever CFG selects: the shift step's effect, and beyond it only the message, TERMSTOP
and the phase. -/
theorem exec_classifyCode_of_lookup {s : State} {k : Bits} {x : Byte} (hk : codeLookup s.ct k = some x) :
    ∃ out termStop phase, exec (classifyCode s.cfg x k) s =
      .next { shiftMatched s with out := out, termStop := termStop, phase := phase } := by
  obtain hcode | hcode | hcode := classifyCode_isCode s.cfg x k <;> rw [hcode]
  · exact ⟨_, _, _, exec_codeEmit_of_lookup hk⟩
  · exact ⟨_, _, _, exec_codeTerm_of_lookup hk⟩
  · exact ⟨_, _, _, exec_codeDrop_of_lookup hk⟩

/-! ### The statements -/

/-- Settles O25: PAD by membership of the empty key, the arithmetic of the message start, and the fetch in PAD. -/
theorem padSkipsToTheMessage : Obligations.PadSkipsToTheMessage := by
  intro s
  exact ⟨exec_pad_of_no_empty_key, exec_pad_of_empty_key, messageStart_le_and_mod_eight, fetch_pad⟩

/-- Settles O29: with no host move the step is the sequencer's, which fetches the shift or the CODE selected; the frame is
that of the CODE. -/
theorem shiftStepTakesOneBit : Obligations.ShiftStepTakesOneBit := by
  intro s b hhost hp hc hb
  rw [step_no_host hhost]
  refine ⟨fun hk => ?pending, fun x hk => ?matched⟩
  case pending => exact sequencerStep_of_shift (fetch_decode_of_notMem hp hc.ne hb hk)
  case matched =>
    have hstep : sequencerStep s = exec (classifyCode s.cfg x (s.cand ++ [b])) s :=
      sequencerStep_of_element (fetch_decode_of_lookup hp hc.ne hb hk)
    obtain ⟨out, termStop, phase, hcode⟩ := exec_classifyCode_of_lookup hk
    exact ⟨hstep, _, hstep.trans hcode, rfl, rfl, rfl⟩

/-- Settles O30: EOS by the candidate left over, and the fetch at the end of the input. -/
theorem eosEndsTheMessage : Obligations.EosEndsTheMessage := by
  intro s
  exact ⟨exec_eos_of_no_candidate, exec_eos_of_candidate, fetch_decode_of_end⟩

end Sys2Proof.Machine

/-!
The host command CONFIG (10 R41; 45 R216, R219): the mask that forces the reserved bits to 0, one rule per case of the
command, then the statement.
-/
namespace Sys2Proof.Machine

/-- The mask keeps the bits below 19 (10 R41). -/
theorem cfgMask_getLsbD (i : Nat) : cfgMask.getLsbD i = decide (i < 19) := by
  by_cases hi : i < 32
  · have low : ∀ j : Fin 32, cfgMask.getLsbD j = decide (j.val < 19) := by decide
    exact low ⟨i, hi⟩
  · rw [BitVec.getLsbD_of_ge _ _ (by omega)]
    simp only [false_eq_decide_iff]
    omega

theorem exec_config_of_not_running (v : Word) {s : State} (h : s.running = false) :
    exec (.config v) s = .next { s with cfg := v &&& cfgMask } := by
  simp [exec, execConfig, h]

theorem exec_config_of_running (v : Word) {s : State} (h : s.running = true) : exec (.config v) s = .next s := by
  simp [exec, execConfig, h]

/-- Settles O4: a case per value of `running`; not running, the bits of CFG are those of the value under the mask. -/
theorem configWritesTheRegister : Obligations.ConfigWritesTheRegister := by
  refine ⟨fun v s hstopped => ?stopped, fun v s hrunning => exec_config_of_running v hrunning⟩
  case stopped =>
    refine ⟨{ s with cfg := v &&& cfgMask }, exec_config_of_not_running v hstopped, rfl, fun i => ?_⟩
    rw [BitVec.getLsbD_and, cfgMask_getLsbD, Bool.and_comm]

end Sys2Proof.Machine

/-!
Runs, and the ends of an operation: steps compose, and a state that shows a result of `Decode` ends the run.
-/
namespace Sys2Proof.Machine

/-! ### Runs -/

@[simp] theorem runSteps_zero (s : State) : runSteps 0 s = .next s := rfl

theorem runSteps_succ {s t : State} (h : step s = .next t) (n : Nat) : runSteps (n + 1) s = runSteps n t := by
  rw [runSteps, h]

theorem runSteps_add {m : Nat} {s t : State} (h : runSteps m s = .next t) (n : Nat) :
    runSteps (m + n) s = runSteps n t := by
  induction m generalizing s with
  | zero =>
    cases h
    rw [Nat.zero_add]
  | succ m ih =>
    cases hstep : step s with
    | next s' =>
      rw [runSteps_succ hstep] at h
      rw [Nat.succ_add, runSteps_succ hstep, ih h]
    | fault r => nomatch r
    | refused r => simp [runSteps, hstep] at h

theorem runSteps_one {s t : State} (h : step s = .next t) : runSteps 1 s = .next t := runSteps_succ h 0

/-! ### Ends -/

/-- Within `k` steps `s` comes to a state that shows `r`. -/
def EndsWithin (k : Nat) (s : State) (r : DecodeResult) : Prop :=
  ∃ n u, n ≤ k ∧ runSteps n s = .next u ∧ shows u r

theorem EndsWithin.mono {j k : Nat} {s : State} {r : DecodeResult} (hjk : j ≤ k) (h : EndsWithin j s r) :
    EndsWithin k s r := by
  obtain ⟨n, u, hn, hrun, hshows⟩ := h
  exact ⟨n, u, hn.trans hjk, hrun, hshows⟩

theorem EndsWithin.of_run {m k : Nat} {s t : State} {r : DecodeResult} (hrun : runSteps m s = .next t)
    (h : EndsWithin k t r) : EndsWithin (m + k) s r := by
  obtain ⟨n, u, hn, hrest, hshows⟩ := h
  exact ⟨m + n, u, by omega, (runSteps_add hrun n).trans hrest, hshows⟩

theorem EndsWithin.of_step {k : Nat} {s t : State} {r : DecodeResult} (hstep : step s = .next t)
    (h : EndsWithin k t r) : EndsWithin (k + 1) s r :=
  .mono (by omega) (.of_run (runSteps_one hstep) h)

theorem EndsWithin.of_shows {s : State} {r : DecodeResult} (h : shows s r) : EndsWithin 0 s r :=
  ⟨0, s, le_rfl, rfl, h⟩

/-- Error entry shows the error (60 R238). -/
theorem shows_raiseIn (ph : Phase) (kind : ErrKind) (pos : Nat) {s : State} (hterm : s.termStop = false) :
    shows (raiseIn ph kind pos s) (.error kind) := by
  simp [shows, hterm]

theorem EndsWithin.of_raiseIn {s u : State} {ph : Phase} {kind : ErrKind} {pos : Nat}
    (hstep : step s = .next (raiseIn ph kind pos u)) (hterm : u.termStop = false) : EndsWithin 1 s (.error kind) :=
  .of_step hstep (.of_shows (shows_raiseIn ph kind pos hterm))

/-! ### The bits of a canonical memory -/

@[simp] theorem bytesBits_length (bs : List Byte) : (bytesBits bs).length = 8 * bs.length := by
  simp [bytesBits, List.length_flatMap, Nat.mul_comm]

@[simp] theorem State.bits_length (s : State) : s.bits.length = s.bitLen := by
  simp [State.bits, State.bitLen, memBitLen]

/-- Bit `8 j + k` of a byte sequence is bit `k` of its byte `j` (20 R62). -/
theorem bytesBits_getElem? (bs : List Byte) (i : Nat) :
    (bytesBits bs)[i]? = bs[i / 8]?.map fun b => b.getMsbD (i % 8) := by
  induction bs generalizing i with
  | nil => rfl
  | cons a bs ih =>
    have hcons : bytesBits (a :: bs) = byteBits a ++ bytesBits bs := rfl
    by_cases hi : i < 8
    · rw [hcons, List.getElem?_append_left (by simpa using hi), byteBits_getElem? a hi, Nat.div_eq_of_lt hi,
        Nat.mod_eq_of_lt hi]
      rfl
    · obtain ⟨j, rfl⟩ : ∃ j, i = j + 8 := ⟨i - 8, by omega⟩
      rw [hcons, List.getElem?_append_right (by simp), byteBits_length, Nat.add_sub_cancel, ih,
        Nat.add_div_right j (by decide), Nat.add_mod_right]
      rfl

/-- BIT on a canonical memory reads `BITS` (10 R21, 40 R122). -/
theorem memBit_eq_bits {s : State} (hwf : Memory.wf s.bytes = true) (i : Nat) : memBit s.bytes i = s.bits[i]? := by
  obtain ⟨bs, hbs⟩ := (wf_iff_memOfBytes s.bytes).mp hwf
  rw [State.bits, hbs, memOfBytes_values, bytesBits_getElem?]
  cases hb : bs[i / 8]? with
  | none =>
    have hi : bs.length ≤ i / 8 := by simpa using hb
    exact memBit_none_of_le _ _ (by rw [memBitLen_memOfBytes]; omega)
  | some b =>
    have hbit := memBit_memOfBytes hb (show i % 8 ≤ 7 by omega)
    rwa [Nat.div_add_mod] at hbit

/-- A byte inside a canonical memory is the group of `BITS` that stands there (20 R62, 42 R153). -/
theorem memRead_eq_alphabetGroup {s : State} (hwf : Memory.wf s.bytes = true) {k : Nat} (hk : 8 * k + 8 ≤ s.bitLen) :
    memRead s.bytes k = some (alphabetGroup s.bits (8 * k)) := by
  obtain ⟨bs, hbs⟩ := (wf_iff_memOfBytes s.bytes).mp hwf
  have hlt : k < bs.length := by
    rw [State.bitLen, hbs, memBitLen_memOfBytes] at hk
    omega
  have hbyte : bs[k]? = some bs[k] := List.getElem?_eq_getElem hlt
  rw [State.bits, hbs, memRead_memOfBytes, memOfBytes_values, alphabetGroup_bytesBits hbyte, hbyte]

end Sys2Proof.Machine

/-!
The HEADER and ALPHABET phases as runs (41 R141 to R144; 42 R151 to R153), beside the lines of `Decode` they compute.
-/
namespace Sys2Proof.Machine

/-! ### HEADER -/

/-- The checks of 41 R141 on the header byte `n`: the tree start and the alphabet boundary lie inside the input. -/
def headerAccepts (p : Params) (n : Byte) (len : Nat) : Prop :=
  treeStart n ≤ len ∧ boundaryOk (alphabetEnd p.alphabetEnd n len) len = true

section
variable {bs : List Byte} {bits : Bits} {len : Nat} {n : Byte} {p : Params} (cfg : Word)
  (hbits : bytesBits bs = bits) (hlen : bits.length = len) (hn : alphabetGroup bits 0 = n)
include hbits hlen hn

/-- `Decode` on a header that passes its checks. -/
theorem decodeContainer_of_headerAccepts (h : headerAccepts p n len) :
    decodeContainer bs cfg p = decodeMessage bits cfg p.newline
      (reconstruct bits (treeStart n) (extractAlphabet bits (alphabetEnd p.alphabetEnd n len)) n.toNat) := by
  subst hbits hlen hn
  obtain ⟨htree, hboundary⟩ := h
  have hbyte : ¬ (bytesBits bs).length < 8 := by
    have := le_treeStart (alphabetGroup (bytesBits bs) 0)
    omega
  exact (if_neg hbyte).trans ((if_neg htree.not_gt).trans (if_neg ((boundaryOk_iff _ _).mp hboundary)))

/-- `Decode` on a header that fails a check. -/
theorem decodeContainer_of_not_headerAccepts (h : ¬ headerAccepts p n len) :
    decodeContainer bs cfg p = .error .outOfRange := by
  subst hbits hlen hn
  by_cases hbyte : (bytesBits bs).length < 8
  · exact if_pos hbyte
  · by_cases htree : (bytesBits bs).length < treeStart (alphabetGroup (bytesBits bs) 0)
    · exact (if_neg hbyte).trans (if_pos htree)
    · have hboundary := not_not.mp fun hbad => h ⟨not_lt.mp htree, (boundaryOk_iff _ _).mpr hbad⟩
      exact (if_neg hbyte).trans ((if_neg htree).trans (if_pos hboundary))

end

section
variable {s : State} (hhost : s.host = []) (hwf : Memory.wf s.bytes = true) (hp : s.phase = .header)
include hhost hwf hp

theorem step_header (hlen : 8 ≤ s.bitLen) : step s = exec (.size (alphabetGroup s.bits 0)) s := by
  have hbyte : memRead s.bytes 0 = some (alphabetGroup s.bits 0) := memRead_eq_alphabetGroup hwf hlen
  rw [step_no_host hhost, sequencerStep_of_element (fetch_header_of_byte hp hwf hbyte)]

theorem step_header_of_headerAccepts (h : headerAccepts s.params (alphabetGroup s.bits 0) s.bitLen) :
    step s = .next (sizeAccept (alphabetGroup s.bits 0) s) := by
  obtain ⟨htree, hboundary⟩ := h
  rw [step_header hhost hwf hp (by have := le_treeStart (alphabetGroup s.bits 0); omega),
    exec_size_of_boundary_ok htree hboundary]

theorem step_header_of_not_headerAccepts (h : ¬ headerAccepts s.params (alphabetGroup s.bits 0) s.bitLen) :
    ∃ pos, step s = .next (raise .outOfRange pos s) := by
  by_cases hlen : s.bitLen < 8
  · exact ⟨0, by rw [step_no_host hhost, sequencerStep_of_outOfRange (fetch_header_of_no_byte hp hlen)]⟩
  · rw [step_header hhost hwf hp (not_lt.mp hlen)]
    by_cases htree : s.bitLen < treeStart (alphabetGroup s.bits 0)
    · exact ⟨_, exec_size_of_tree_beyond (not_lt.mp hlen) htree⟩
    · exact ⟨_, exec_size_of_boundary_bad (not_lt.mp htree) fun hok => h ⟨not_lt.mp htree, hok⟩⟩

end

/-! ### ALPHABET -/

/-- One step of the ALPHABET phase below the boundary. -/
theorem step_alphabet {s : State} (hhost : s.host = []) (hwf : Memory.wf s.bytes = true) (hp : s.phase = .alphabet)
    (halign : s.cur % 8 = 0) (hc : s.cur < s.aend) (hlen : s.cur + 8 ≤ s.bitLen) :
    step s = .next { s with sym := symInsert s.sym (alphabetGroup s.bits s.cur), cur := s.cur + 8 } := by
  have hcur : 8 * (s.cur / 8) = s.cur := by omega
  have hbyte : memRead s.bytes (s.cur / 8) = some (alphabetGroup s.bits s.cur) := by
    simpa only [hcur] using memRead_eq_alphabetGroup hwf (k := s.cur / 8) (by omega)
  rw [step_no_host hhost, sequencerStep_of_element (fetch_alphabet_of_byte hp hc halign hwf hbyte), exec_sym]

theorem step_alphabet_boundary {s : State} (hhost : s.host = []) (hp : s.phase = .alphabet) (hc : s.aend ≤ s.cur) :
    step s = .next (alphabetExit s) := by
  rw [step_no_host hhost, sequencerStep_of_alphabetExit (fetch_alphabet_of_boundary hp hc)]

/-- The steps of the ALPHABET phase collect groups (42 R153). -/
theorem runSteps_alphabet (n : Nat) {s : State} (hhost : s.host = []) (hwf : Memory.wf s.bytes = true)
    (hp : s.phase = .alphabet) (halign : s.cur % 8 = 0) (hc : s.cur + 8 * n ≤ s.aend) (hlen : s.aend ≤ s.bitLen) :
    runSteps n s = .next { s with cur := s.cur + 8 * n, sym := extractGroups s.bits n s.cur s.sym } := by
  induction n generalizing s with
  | zero => rfl
  | succ n ih =>
    have hcursor : s.cur + 8 + 8 * n = s.cur + 8 * (n + 1) := by omega
    rw [runSteps_succ (step_alphabet hhost hwf hp halign (by omega) (by omega))]
    refine Eq.trans (ih hhost hwf hp ?_ ?_ hlen) ?_
    · exact (Nat.add_mod_right s.cur 8).trans halign
    · exact hcursor.trans_le hc
    · rw [hcursor]
      rfl

/-- The whole ALPHABET phase, its exit included: `ExtractAlphabet` (42 R152, R153). -/
theorem runSteps_alphabet_exit {s : State} (hhost : s.host = []) (hwf : Memory.wf s.bytes = true)
    (hp : s.phase = .alphabet) (hcur : s.cur = 8) (hsym : s.sym = []) (hge : 8 ≤ s.aend) (hmod : s.aend % 8 = 0)
    (hlen : s.aend ≤ s.bitLen) :
    runSteps ((s.aend - 8) / 8 + 1) s =
      .next (alphabetExit { s with cur := s.aend, sym := extractAlphabet s.bits s.aend }) := by
  have hend : s.cur + 8 * ((s.aend - 8) / 8) = s.aend := by omega
  have hsteps := runSteps_alphabet ((s.aend - 8) / 8) hhost hwf hp (by omega) hend.le hlen
  rw [hend, hcur, hsym] at hsteps
  rw [runSteps_add hsteps]
  exact runSteps_one (step_alphabet_boundary hhost hp le_rfl)

end Sys2Proof.Machine

/-!
The TREE phase as a run (43 R161, R169): the machine reaches the last LEAF of every walk that succeeds, with the stack it
began with, and raises the error of every walk that fails. That LEAF then goes to the right child of the node waiting, or
completes the tree.
-/
namespace Sys2Proof.Machine

/-! ### The steps of the TREE phase -/

/-- What NODE leaves (43 R162). -/
def descendLeft (s : State) : State :=
  { s with stk := s.path :: s.stk, path := s.path ++ [false], cur := s.cur + 1 }

section
variable {s : State} (hhost : s.host = []) (hp : s.phase = .tree)
include hhost hp

theorem step_tree_of_end (hb : memBit s.bytes s.cur = none) : step s = .next (raise .outOfRange s.cur s) := by
  have hfetch : fetch s = .outOfRange s.cur := by rw [fetch_tree hp, hb]
  rw [step_no_host hhost, sequencerStep_of_outOfRange hfetch]

theorem step_tree_of_false (hb : memBit s.bytes s.cur = some false) :
    step s = .next (descendLeft s) := by
  rw [step_no_host hhost, sequencerStep_of_element (fetch_tree_of_false hp hb), exec_node, descendLeft]

theorem step_tree_of_true (hb : memBit s.bytes s.cur = some true) : step s = exec .leaf s := by
  rw [step_no_host hhost, sequencerStep_of_element (fetch_tree_of_true hp hb)]

end

/-! ### What a run of the phase does with a walk -/

/-- From `s` the machine carries out the walk with the result given: it comes to the walk's last LEAF, which records the
result and finds the stack of `s`, or it raises the walk's error. -/
def CarriesOutWalk (s : State) : WalkResult → Prop
  | .ok ct c k => ∃ n u x, runSteps n s = .next u ∧ c = s.cur + n + 1 ∧ memBit u.bytes u.cur = some true ∧
      u.sym[u.leaf]? = some x ∧ leafRecord x u = { s with path := u.path, ct := ct, cur := c, leaf := k }
  | .error kind pos => ∃ n u, n ≤ s.bitLen - s.cur + 1 ∧ runSteps n s = .next (raise kind pos u) ∧ u.phase = .tree ∧
      u.termStop = s.termStop

/-- The last LEAF of a walk that succeeds: what the machine reads there, and what it has kept since `s`. -/
theorem CarriesOutWalk.lastLeaf {s : State} {ct : CodeTable} {c k : Nat} (hhost : s.host = []) (hp : s.phase = .tree)
    (h : CarriesOutWalk s (.ok ct c k)) :
    s.cur < c ∧ c ≤ s.bitLen ∧ ∃ u x, runSteps (c - s.cur - 1) s = .next u ∧ step u = exec .leaf u ∧
      u.stk = s.stk ∧ u.termStop = s.termStop ∧ u.sym[u.leaf]? = some x ∧
      leafRecord x u = { s with path := u.path, ct := ct, cur := c, leaf := k } := by
  obtain ⟨n, u, x, hrun, rfl, hb, hx, hrecord⟩ := h
  have hstep : step u = exec .leaf u :=
    step_tree_of_true ((congrArg State.host hrecord).trans hhost) ((congrArg State.phase hrecord).trans hp) hb
  have hbytes : u.bytes = s.bytes := (congrArg State.bytes hrecord :)
  have hcur : u.cur + 1 = s.cur + n + 1 := congrArg State.cur hrecord
  have hlen : u.cur < memBitLen s.bytes := hbytes ▸ memBit_lt hb
  refine ⟨by omega, hcur.ge.trans hlen, u, x, ?_, hstep, (congrArg State.stk hrecord :),
    (congrArg State.termStop hrecord :), hx, hrecord⟩
  rwa [show s.cur + n + 1 - s.cur - 1 = n by omega]

/-- With a node waiting, the last LEAF of a walk goes to that node's right child. -/
theorem runSteps_of_walk_waiting {s : State} {ct : CodeTable} {c k : Nat} {q : Bits} {rest : List Bits}
    (hhost : s.host = []) (hp : s.phase = .tree) (hq : s.stk = q :: rest) (h : CarriesOutWalk s (.ok ct c k)) :
    s.cur < c ∧ c ≤ s.bitLen ∧
      runSteps (c - s.cur) s = .next { s with path := q ++ [true], stk := rest, ct := ct, cur := c, leaf := k } := by
  obtain ⟨hlt, hle, u, x, hrun, hstep, hstk, -, hx, hrecord⟩ := h.lastLeaf hhost hp
  rw [exec_leaf_of_waiting hx (hstk.trans hq), hrecord] at hstep
  refine ⟨hlt, hle, ?_⟩
  rw [show c - s.cur = c - s.cur - 1 + 1 by omega, runSteps_add hrun, runSteps_one hstep]

/-- With no node waiting, the last LEAF of a walk completes the tree on the walk's results. -/
theorem step_of_walk_complete {s : State} {ct : CodeTable} {c k : Nat} (hhost : s.host = []) (hp : s.phase = .tree)
    (hq : s.stk = []) (h : CarriesOutWalk s (.ok ct c k)) :
    s.cur < c ∧ c ≤ s.bitLen ∧ ∃ u, runSteps (c - s.cur - 1) s = .next u ∧ u.termStop = s.termStop ∧
      step u = .next (completeTree u { s with path := u.path, ct := ct, cur := c, leaf := k }) := by
  obtain ⟨hlt, hle, u, x, hrun, hstep, hstk, hterm, hx, hrecord⟩ := h.lastLeaf hhost hp
  rw [exec_leaf_of_none_waiting hx (hstk.trans hq), hrecord] at hstep
  exact ⟨hlt, hle, u, hrun, hterm, hstep⟩

/-- A run that comes to `t`, the cursor counting its steps, and the error raised from `t`. -/
theorem CarriesOutWalk.error_of_run {m : Nat} {s t : State} {kind : ErrKind} {pos : Nat}
    (hrun : runSteps m s = .next t) (hbytes : t.bytes = s.bytes) (hterm : t.termStop = s.termStop)
    (hcur : t.cur = s.cur + m) (hlen : t.cur ≤ s.bitLen) (h : CarriesOutWalk t (.error kind pos)) :
    CarriesOutWalk s (.error kind pos) := by
  obtain ⟨n, u, hn, hrest, hphase, hstop⟩ := h
  have hbitLen : t.bitLen = s.bitLen := congrArg memBitLen hbytes
  exact ⟨m + n, u, by omega, (runSteps_add hrun n).trans hrest, hphase, hstop.trans hterm⟩

/-- A run that leaves the stack and comes to bit `c`, and the walk carried out from there. -/
theorem CarriesOutWalk.of_run {s : State} {path : Bits} {ct : CodeTable} {c k : Nat} {r : WalkResult}
    (hle : s.cur ≤ c) (hlen : c ≤ s.bitLen)
    (hrun : runSteps (c - s.cur) s = .next { s with path := path, ct := ct, cur := c, leaf := k })
    (h : CarriesOutWalk { s with path := path, ct := ct, cur := c, leaf := k } r) : CarriesOutWalk s r := by
  cases r with
  | error kind pos => exact .error_of_run hrun rfl rfl (by dsimp only; omega) hlen h
  | ok ct' c' k' =>
    obtain ⟨n, u, x, hrest, hc, hb, hx, hrecord⟩ := h
    exact ⟨c - s.cur + n, u, x, (runSteps_add hrun n).trans hrest, by dsimp only at hc; omega, hb, hx, hrecord⟩

section
variable {s : State} (hhost : s.host = []) (hp : s.phase = .tree) (hb : memBit s.bytes s.cur = some false)
include hhost hp hb

/-- An error in a node's left subtree is the error of its walk. -/
theorem CarriesOutWalk.node_of_left_error {kind : ErrKind} {pos : Nat}
    (hleft : CarriesOutWalk (descendLeft s) (.error kind pos)) : CarriesOutWalk s (.error kind pos) :=
  .error_of_run (runSteps_one (step_tree_of_false hhost hp hb)) rfl rfl rfl (memBit_lt hb) hleft

/-- After a node's left subtree the right one is walked, from the stack of `s`. -/
theorem CarriesOutWalk.node_of_left_ok {ct : CodeTable} {c k : Nat} {r : WalkResult}
    (hleft : CarriesOutWalk (descendLeft s) (.ok ct c k))
    (hright : s.cur < c → CarriesOutWalk { s with path := s.path ++ [true], ct := ct, cur := c, leaf := k } r) :
    CarriesOutWalk s r := by
  obtain ⟨hlt, hle, hrun⟩ := runSteps_of_walk_waiting (s := descendLeft s) hhost hp rfl hleft
  have hlt : s.cur + 1 < c := hlt
  refine .of_run (by omega) hle ?_ (hright (by omega))
  rw [show c - s.cur = c - (s.cur + 1) + 1 by omega, runSteps_succ (step_tree_of_false hhost hp hb)]
  exact hrun

end

/-- The TREE phase carries out `Walk` (43 R169), by induction on the walk's depth bound. -/
theorem carriesOutWalk (fuel : Nat) {s : State} (hhost : s.host = []) (hwf : Memory.wf s.bytes = true)
    (hp : s.phase = .tree) (hfuel : s.bitLen < s.cur + fuel) :
    CarriesOutWalk s (walk s.bits s.sym fuel s.cur s.path s.leaf s.ct) := by
  induction fuel generalizing s with
  | zero =>
    exact ⟨1, s, by omega, runSteps_one (step_tree_of_end hhost hp (memBit_none_of_le _ _ hfuel.le)), hp, rfl⟩
  | succ fuel ih =>
    have hbits := memBit_eq_bits hwf s.cur
    rw [walk]
    cases hb : s.bits[s.cur]? with
    | none => exact ⟨1, s, by omega, runSteps_one (step_tree_of_end hhost hp (hbits.trans hb)), hp, rfl⟩
    | some b =>
      cases b with
      | true =>
        have hstep := step_tree_of_true hhost hp (hbits.trans hb)
        cases hx : s.sym[s.leaf]? with
        | none =>
          rw [exec_leaf_of_exhausted (List.getElem?_eq_none_iff.mp hx)] at hstep
          exact ⟨1, s, by omega, runSteps_one hstep, hp, rfl⟩
        | some x => exact ⟨0, s, x, rfl, rfl, hbits.trans hb, hx, rfl⟩
      | false =>
        have hleft : CarriesOutWalk (descendLeft s)
            (walk s.bits s.sym fuel (s.cur + 1) (s.path ++ [false]) s.leaf s.ct) :=
          ih hhost hwf hp (show s.bitLen < s.cur + 1 + fuel by omega)
        cases hresult : walk s.bits s.sym fuel (s.cur + 1) (s.path ++ [false]) s.leaf s.ct with
        | error kind pos =>
          rw [hresult] at hleft
          exact .node_of_left_error hhost hp (hbits.trans hb) hleft
        | ok ct c k =>
          rw [hresult] at hleft
          refine .node_of_left_ok hhost hp (hbits.trans hb) hleft fun hc => ?_
          exact ih hhost hwf hp (show s.bitLen < c + fuel by omega)

end Sys2Proof.Machine

/-!
The PAD and DECODE phases as a run (44 R181 to R193): the loop of `DecodeStream` by the CODE each key selects, one step per
message bit, and the end of the input.
-/
namespace Sys2Proof.Machine

/-! ### The loop of `DecodeStream` by the CODE selected -/

/-- A key CFG neither ends the message at nor suppresses is a CODE.EMIT (30 R99). -/
theorem classifyCode_of_not_term_of_not_rem {cfg : Word} {x : Byte}
    (hterm : ¬ (cfgMode cfg = true ∧ cfgTermEn cfg = true ∧ x = cfgTerm cfg))
    (hrem : ¬ (cfgMode cfg = true ∧ cfgRemEn cfg = true ∧ x = cfgRem cfg)) (k : Bits) :
    classifyCode cfg x k = .codeEmit k := by
  cases hmode : cfgMode cfg with
  | false => exact classifyCode_of_unfiltered hmode x k
  | true => exact classifyCode_of_neither (fun h => hterm ⟨hmode, h⟩) (fun h => hrem ⟨hmode, h⟩) k

section
variable {ct : CodeTable} {cfg : Word} {newline x : Byte} {cand bits : Bits} {b : Bool} {out : List Byte}

theorem decodeLoop_of_no_key (hk : codeLookup ct (cand ++ [b]) = none) :
    decodeLoop ct cfg newline cand (b :: bits) out = decodeLoop ct cfg newline (cand ++ [b]) bits out := by
  rw [decodeLoop, hk]

variable (hk : codeLookup ct (cand ++ [b]) = some x)
include hk

theorem decodeLoop_of_term (hterm : cfgMode cfg = true ∧ cfgTermEn cfg = true ∧ x = cfgTerm cfg) :
    decodeLoop ct cfg newline cand (b :: bits) out = .ok (out ++ [newline]) true := by
  rw [decodeLoop, hk]
  exact if_pos hterm

theorem decodeLoop_of_rem (hterm : ¬ (cfgMode cfg = true ∧ cfgTermEn cfg = true ∧ x = cfgTerm cfg))
    (hrem : cfgMode cfg = true ∧ cfgRemEn cfg = true ∧ x = cfgRem cfg) :
    decodeLoop ct cfg newline cand (b :: bits) out = decodeLoop ct cfg newline [] bits out := by
  rw [decodeLoop, hk]
  exact (if_neg hterm).trans (if_pos hrem)

theorem decodeLoop_of_neither (hterm : ¬ (cfgMode cfg = true ∧ cfgTermEn cfg = true ∧ x = cfgTerm cfg))
    (hrem : ¬ (cfgMode cfg = true ∧ cfgRemEn cfg = true ∧ x = cfgRem cfg)) :
    decodeLoop ct cfg newline cand (b :: bits) out = decodeLoop ct cfg newline [] bits (out ++ [x]) := by
  rw [decodeLoop, hk]
  exact (if_neg hterm).trans (if_neg hrem)

end

/-! ### The steps of the DECODE phase -/

/-- The state of an operation that has raised nothing and met no terminator, with no host move waiting. -/
structure Undisturbed (s : State) : Prop where
  host : s.host = []
  wf : Memory.wf s.bytes = true
  err : s.err = .none
  termStop : s.termStop = false

/-- The end of the input in DECODE (44 R191, R192). -/
theorem endsWithin_of_end {s : State} (h : Undisturbed s) (hp : s.phase = .decode) (hend : s.cur = s.bitLen) :
    EndsWithin 1 s (decodeLoop s.ct s.cfg s.params.newline s.cand [] s.out) := by
  have hstep : step s = exec .eos s := by
    rw [step_no_host h.host, sequencerStep_of_element (fetch_decode_of_end hp hend)]
  by_cases hcand : s.cand = []
  · rw [exec_eos_of_no_candidate hcand] at hstep
    refine .of_step hstep (.of_shows ?_)
    simp [decodeLoop, hcand, shows, h.err, h.termStop]
  · rw [exec_eos_of_candidate hcand] at hstep
    rw [decodeLoop, if_pos hcand]
    exact .of_raiseIn hstep h.termStop

/-- The DECODE phase computes the loop of `DecodeStream` (44 R193), by induction on the message bits left. -/
theorem endsWithin_decodeLoop (bits : Bits) {s : State} (h : Undisturbed s) (hp : s.phase = .decode)
    (hle : s.cur ≤ s.bitLen) (hbits : s.bits.drop s.cur = bits) :
    EndsWithin (bits.length + 1) s (decodeLoop s.ct s.cfg s.params.newline s.cand bits s.out) := by
  induction bits generalizing s with
  | nil =>
    have hend : s.bits.length ≤ s.cur := List.drop_eq_nil_iff.mp hbits
    rw [State.bits_length] at hend
    exact endsWithin_of_end h hp (le_antisymm hle hend)
  | cons b bits ih =>
    have hlt : s.cur < s.bitLen := by
      refine lt_of_le_of_ne hle fun hend => ?_
      rw [hend, ← State.bits_length, List.drop_length] at hbits
      cases hbits
    have hrest : s.bits.drop (s.cur + 1) = bits := by rw [← List.drop_drop, hbits, List.drop_one, List.tail_cons]
    have hb : memBit s.bytes s.cur = some b := by
      rw [memBit_eq_bits h.wf, ← List.head?_drop, hbits, List.head?_cons]
    cases hk : codeLookup s.ct (s.cand ++ [b]) with
    | none =>
      have hkey := (codeLookup_eq_none _ _).mp hk
      have hstep : step s = .next (shiftPending (s.cand ++ [b]) s) := by
        rw [step_no_host h.host, sequencerStep_of_shift (fetch_decode_of_notMem hp hlt.ne hb hkey)]
      rw [decodeLoop_of_no_key hk]
      exact .of_step hstep (ih ⟨h.host, h.wf, h.err, h.termStop⟩ hp hlt hrest)
    | some x =>
      have hstep : step s = exec (classifyCode s.cfg x (s.cand ++ [b])) s := by
        rw [step_no_host h.host, sequencerStep_of_element (fetch_decode_of_lookup hp hlt.ne hb hk)]
      by_cases hterm : cfgMode s.cfg = true ∧ cfgTermEn s.cfg = true ∧ x = cfgTerm s.cfg
      · have ⟨hmode, hen⟩ := hterm
        rw [classifyCode_of_term hmode hen, exec_codeTerm_of_lookup hk] at hstep
        rw [decodeLoop_of_term hk hterm]
        exact .mono (by omega) (.of_step hstep (.of_shows ⟨rfl, h.err, rfl, rfl⟩))
      · by_cases hrem : cfgMode s.cfg = true ∧ cfgRemEn s.cfg = true ∧ x = cfgRem s.cfg
        · have ⟨hmode, hen⟩ := hrem
          rw [classifyCode_of_rem hmode (fun hen => hterm ⟨hmode, hen⟩) hen, exec_codeDrop_of_lookup hk] at hstep
          rw [decodeLoop_of_rem hk hterm hrem]
          exact .of_step hstep (ih ⟨h.host, h.wf, h.err, h.termStop⟩ hp hlt hrest)
        · rw [classifyCode_of_not_term_of_not_rem hterm hrem, exec_codeEmit_of_lookup hk] at hstep
          rw [decodeLoop_of_neither hk hterm hrem]
          exact .of_step hstep (ih ⟨h.host, h.wf, h.err, h.termStop⟩ hp hlt hrest)

/-- From PAD on the machine computes `DecodeStream` on the message bits (44 R181, R182, R193). -/
theorem endsWithin_decodeStream {s : State} (h : Undisturbed s) (hp : s.phase = .pad) (hteo : s.teo ≤ s.bitLen)
    (hout : s.out = []) :
    EndsWithin (s.bitLen - s.teo + 2) s
      (decodeStream (s.bits.drop (s.teo + padLength s)) s.ct s.cfg s.params.newline) := by
  have hstep : step s = exec .pad s := by rw [step_no_host h.host, sequencerStep_of_element (fetch_pad hp)]
  by_cases hkey : ([] : Bits) ∈ codeKeys s.ct
  · obtain ⟨x, hk⟩ := codeLookup_of_mem_codeKeys hkey
    rw [exec_pad_of_empty_key hkey] at hstep
    rw [decodeStream, hk]
    exact .mono (by omega) (.of_raiseIn hstep h.termStop)
  · have hk : codeLookup s.ct [] = none := (codeLookup_eq_none _ _).mpr hkey
    obtain ⟨hle, -⟩ := messageStart_le_and_mod_eight hteo
    rw [exec_pad_of_no_empty_key hkey] at hstep
    rw [decodeStream, hk, ← hout]
    refine .mono ?_ (.of_step hstep
      (endsWithin_decodeLoop _ ⟨h.host, h.wf, h.err, h.termStop⟩ rfl hle rfl))
    simp only [List.length_drop, State.bits_length]
    omega

end Sys2Proof.Machine

/-!
A whole operation (45 R212, R213, R222): tree completion on the walk's results, then the phases from the last to the first,
each ending as the part of `Decode` from there on says.
-/
namespace Sys2Proof.Machine

/-! ### Tree completion -/

section
variable {bits : Bits} {tso asize : Nat} {sym : List Byte}

theorem reconstruct_of_error {kind : ErrKind} {pos : Nat}
    (hwalk : walk bits sym (bits.length + 1) tso [] 0 [] = .error kind pos) :
    reconstruct bits tso sym asize = .error kind pos := by
  rw [reconstruct, hwalk]

variable {ct : CodeTable} {teo k : Nat} (hwalk : walk bits sym (bits.length + 1) tso [] 0 [] = .ok ct teo k)
include hwalk

theorem reconstruct_of_count_bad (hcount : k ≠ asize) :
    reconstruct bits tso sym asize = .error .leafMismatch teo := by
  rw [reconstruct, hwalk]
  exact if_pos hcount

theorem reconstruct_of_not_prefixFree (hcount : k = asize) (hfree : ¬ prefixFree ct = true) :
    reconstruct bits tso sym asize = .error .invalidPrefixCode teo := by
  rw [reconstruct, hwalk]
  exact (if_neg (not_not.mpr hcount)).trans (if_neg hfree)

theorem reconstruct_of_prefixFree (hcount : k = asize) (hfree : prefixFree ct = true) :
    reconstruct bits tso sym asize = .ok ct teo k := by
  rw [reconstruct, hwalk]
  exact (if_neg (not_not.mpr hcount)).trans (if_pos hfree)

end

/-! ### The phases, from the last to the first -/

/-- From the tree's first bit on the machine computes the rest of `Decode`. -/
theorem endsWithin_decodeMessage {s : State} (h : Undisturbed s) (hp : s.phase = .tree) (hpath : s.path = [])
    (hstk : s.stk = []) (hleaf : s.leaf = 0) (hct : s.ct = []) (hout : s.out = []) (hle : s.cur ≤ s.bitLen) :
    EndsWithin (s.bitLen - s.cur + 2) s
      (decodeMessage s.bits s.cfg s.params.newline (reconstruct s.bits s.cur s.sym s.asize.toNat)) := by
  have hwalk := carriesOutWalk (s.bits.length + 1) h.host h.wf hp (by rw [State.bits_length]; omega)
  rw [hpath, hleaf, hct] at hwalk
  cases hresult : walk s.bits s.sym (s.bits.length + 1) s.cur [] 0 [] with
  | error kind pos =>
    rw [hresult] at hwalk
    obtain ⟨n, u, hn, hrun, -, hterm⟩ := hwalk
    rw [reconstruct_of_error hresult]
    exact ⟨n, _, by omega, hrun, shows_raiseIn _ _ _ (hterm.trans h.termStop)⟩
  | ok ct c k =>
    rw [hresult] at hwalk
    obtain ⟨hlt, hc, u, hrun, hterm, hstep⟩ := step_of_walk_complete h.host hp hstk hwalk
    have hterm := hterm.trans h.termStop
    by_cases hcount : k = s.asize.toNat
    · by_cases hfree : prefixFree ct = true
      · rw [completeTree_of_prefixFree hcount hfree] at hstep
        rw [reconstruct_of_prefixFree hresult hcount hfree, decodeMessage, State.bits_length]
        have hmessage := endsWithin_decodeStream
          (s := { s with path := u.path, ct := ct, cur := c, leaf := k, teo := c, phase := .pad })
          ⟨h.host, h.wf, h.err, h.termStop⟩ rfl hc hout
        refine .mono ?_ (.of_run hrun (.of_step hstep hmessage))
        change c - s.cur - 1 + (s.bitLen - c + 2 + 1) ≤ s.bitLen - s.cur + 2
        omega
      · rw [completeTree_of_not_prefixFree hcount hfree] at hstep
        rw [reconstruct_of_not_prefixFree hresult hcount hfree]
        exact .mono (by omega) (.of_run hrun (.of_raiseIn hstep hterm))
    · rw [completeTree_of_count_bad hcount] at hstep
      rw [reconstruct_of_count_bad hresult hcount]
      exact .mono (by omega) (.of_run hrun (.of_raiseIn hstep hterm))

/-- From the alphabet's first byte on the machine computes the rest of `Decode`. -/
theorem endsWithin_alphabet {s : State} (h : Undisturbed s) (hp : s.phase = .alphabet) (hcur : s.cur = 8)
    (hsym : s.sym = []) (hct : s.ct = []) (hout : s.out = []) (htree : s.tso ≤ s.bitLen)
    (hboundary : boundaryOk s.aend s.bitLen = true) :
    EndsWithin (s.bitLen + (s.bitLen - s.tso + 2)) s
      (decodeMessage s.bits s.cfg s.params.newline
        (reconstruct s.bits s.tso (extractAlphabet s.bits s.aend) s.asize.toNat)) := by
  have hbounds := (boundaryOk_iff _ _).mp hboundary
  have hrun := runSteps_alphabet_exit h.host h.wf hp hcur hsym (by omega) (by omega) (by omega)
  have hrest := endsWithin_decodeMessage
    (s := alphabetExit { s with cur := s.aend, sym := extractAlphabet s.bits s.aend })
    ⟨h.host, h.wf, h.err, h.termStop⟩ rfl rfl rfl rfl hct hout htree
  refine .mono (Nat.add_le_add_right ?_ _) (.of_run hrun hrest)
  omega

/-- From HEADER on the machine computes `Decode`, within the bound of 45 R222. -/
theorem endsWithin_decodeContainer {s : State} (h : Undisturbed s) (hp : s.phase = .header) (hsym : s.sym = [])
    (hct : s.ct = []) (hout : s.out = []) :
    EndsWithin (3 * s.bitLen + 5) s (decodeContainer (s.bytes.map Prod.snd) s.cfg s.params) := by
  by_cases haccept : headerAccepts s.params (alphabetGroup s.bits 0) s.bitLen
  · have hstep := step_header_of_headerAccepts h.host h.wf hp haccept
    rw [decodeContainer_of_headerAccepts s.cfg rfl s.bits_length rfl haccept]
    obtain ⟨htree, hboundary⟩ := haccept
    have hrest := endsWithin_alphabet (s := sizeAccept (alphabetGroup s.bits 0) s)
      ⟨h.host, h.wf, h.err, h.termStop⟩ rfl rfl hsym hct hout htree hboundary
    refine .mono ?_ (.of_step hstep hrest)
    change s.bitLen + (s.bitLen - treeStart (alphabetGroup s.bits 0) + 2) + 1 ≤ 3 * s.bitLen + 5
    omega
  · obtain ⟨pos, hstep⟩ := step_header_of_not_headerAccepts h.host h.wf hp haccept
    rw [decodeContainer_of_not_headerAccepts s.cfg rfl s.bits_length rfl haccept]
    exact .mono (by omega) (.of_raiseIn hstep h.termStop)

/-! ### The statement -/

/-- Settles O56: START leaves an undisturbed HEADER state with empty tables, from which the phases compute `Decode`. -/
theorem machineComputesDecode : Obligations.MachineComputesDecode := by
  intro bs s t hhost hstopped hbytes hstart
  rw [exec_start_of_not_running hstopped] at hstart
  cases hstart
  have hwf : Memory.wf s.bytes = true := hbytes ▸ memOfBytes_wf bs
  have hends := endsWithin_decodeContainer (s := startOperation s) ⟨hhost, hwf, rfl, rfl⟩ rfl rfl rfl rfl
  rw [startOperation_bytes, hbytes, memOfBytes_values] at hends
  obtain ⟨n, u, -, hrun, hshows⟩ := hends
  exact ⟨n, u, hrun, hshows⟩

end Sys2Proof.Machine

/-!
The input and CFG during a run (45 R214 to R219; 70 R271): what the host's next move makes of the step, then the frame of a
command other than RESET and of the sequencer.
-/
namespace Sys2Proof.Machine

/-! ### The host's next move -/

theorem step_of_issue {s : State} {c : Command} {rest : List HostMove} (hhost : s.host = .issue c :: rest) :
    step s = exec c.toInstr { s with host := rest } := by
  simp [step, stepHost, hhost]

theorem step_of_wait {s : State} {rest : List HostMove} (hhost : s.host = .wait :: rest) :
    step s = sequencerStep { s with host := rest } := by
  simp [step, stepHost, hhost]

/-! ### The frames -/

@[simp] theorem exec_result (s : State) : exec .result s = .next (setReply (resultReply s) s) := rfl

/-- While an operation runs RESULT answers, and every other command but RESET is ignored (45 R218, R219). -/
theorem exec_command_of_running {c : Command} {s t : State} (hc : c ≠ .reset) (hrunning : s.running = true)
    (h : exec c.toInstr s = .next t) : t = s ∨ t = setReply (resultReply s) s := by
  cases c with
  | reset => contradiction
  | load bs => rw [Command.toInstr, exec_load_of_running bs hrunning] at h; cases h; exact .inl rfl
  | config v => rw [Command.toInstr, exec_config_of_running v hrunning] at h; cases h; exact .inl rfl
  | start => rw [Command.toInstr, exec_start_of_running hrunning] at h; cases h; exact .inl rfl
  | result => rw [Command.toInstr, exec_result] at h; cases h; exact .inr rfl

/-- No outcome of the sequencer writes BYTES or CFG. -/
theorem SeqStep.bytes_and_cfg {s t : State} (h : SeqStep s t) : t.bytes = s.bytes ∧ t.cfg = s.cfg := by
  cases h <;> exact ⟨rfl, rfl⟩

/-! ### The statement -/

/-- Settles O38: a case per next move of the host; a command is ignored or answers, and the sequencer writes neither. -/
theorem inputAndConfigurationStayDuringARun : Obligations.InputAndConfigurationStayDuringARun := by
  intro s t h hrunning hnoReset
  cases hhost : s.host with
  | nil =>
    rw [step_no_host hhost] at h
    exact (sequencerStep_cases h).bytes_and_cfg
  | cons move rest =>
    cases move with
    | issue c =>
      have hc : c ≠ .reset := fun hreset => hnoReset rest (hreset ▸ hhost)
      rw [step_of_issue hhost] at h
      rcases exec_command_of_running (s := { s with host := rest }) hc hrunning h with rfl | rfl <;> exact ⟨rfl, rfl⟩
    | wait =>
      rw [step_of_wait hhost] at h
      exact (sequencerStep_cases h).bytes_and_cfg

end Sys2Proof.Machine
/-!
The layout of a running operation (10 R24, 20 R65, 41 R146, 44 R181): what `LayoutInv` asks in each phase, then every step
keeps it, a case per outcome.
-/
namespace Sys2Proof.Machine

/-! ### Phases -/

theorem phase_ne_of_not_running {s : State} {p : Phase} (h : s.running = false) (hp : phaseRunning p = true) :
    s.phase ≠ p := by
  rintro rfl
  exact Bool.false_ne_true (h.symm.trans hp)

theorem headerRead_imp_running {p : Phase} (h : headerRead p = true) : phaseRunning p = true := by
  cases p with
  | idle | header | done | error => cases h
  | alphabet | tree | pad | decode => rfl

/-! ### What the layout is, phase by phase -/

/-- The header's values (41 R146): the tree's start lies inside the input, the alphabet's end on a byte boundary in it. -/
def RegionsInside (s : State) : Prop :=
  s.tso = 8 * (s.asize.toNat + 2) ∧ s.tso ≤ s.bitLen ∧ 8 ≤ s.aend ∧ s.aend ≤ s.bitLen ∧ s.aend % 8 = 0

/-- The layout speaks of running operations only. -/
theorem LayoutInv.of_not_running {s : State} (h : s.running = false) : LayoutInv s where
  cursor hr := by simp [h] at hr
  header hp := absurd hp (phase_ne_of_not_running h rfl)
  offsets hp := absurd rfl (phase_ne_of_not_running h (headerRead_imp_running hp))
  alphabet hp := absurd hp (phase_ne_of_not_running h rfl)
  tree hp := absurd hp (phase_ne_of_not_running h rfl)
  pad hp := absurd hp (phase_ne_of_not_running h rfl)
  message hp := absurd hp (phase_ne_of_not_running h rfl)

theorem LayoutInv.of_header {s : State} (hp : s.phase = .header) (hcur : s.cur = 0) : LayoutInv s :=
  ⟨by simp [hcur], fun _ => hcur, by simp [hp, headerRead], by simp [hp], by simp [hp], by simp [hp], by simp [hp]⟩

section
variable {s : State} (hregions : RegionsInside s)
include hregions

theorem LayoutInv.of_alphabet (hp : s.phase = .alphabet) (hcur : 8 ≤ s.cur ∧ s.cur ≤ s.aend ∧ s.cur % 8 = 0) :
    LayoutInv s := by
  have hin : s.cur ≤ s.bitLen := by
    obtain ⟨-, -, -, haend, -⟩ := hregions
    omega
  exact ⟨fun _ => hin, by simp [hp], fun _ => hregions, fun _ => hcur, by simp [hp], by simp [hp], by simp [hp]⟩

theorem LayoutInv.of_tree (hp : s.phase = .tree) (hcur : s.tso ≤ s.cur ∧ s.cur ≤ s.bitLen) : LayoutInv s :=
  ⟨fun _ => hcur.2, by simp [hp], fun _ => hregions, by simp [hp], fun _ => hcur.1, by simp [hp], by simp [hp]⟩

theorem LayoutInv.of_pad (hp : s.phase = .pad) (hteo : s.teo = s.cur) (hcur : s.tso ≤ s.teo ∧ s.cur ≤ s.bitLen) :
    LayoutInv s :=
  ⟨fun _ => hcur.2, by simp [hp], fun _ => hregions, by simp [hp], by simp [hp], fun _ => ⟨hteo, hcur.1⟩, by simp [hp]⟩

theorem LayoutInv.of_decode (hp : s.phase = .decode) (hcur : s.cur ≤ s.bitLen)
    (hmessage : s.tso ≤ s.teo ∧ s.padLen = (s.bitLen - s.teo) % 8 ∧ s.mso = s.teo + s.padLen ∧ s.mso ≤ s.cur ∧
      s.mso % 8 = 0) :
    LayoutInv s :=
  ⟨fun _ => hcur, by simp [hp], fun _ => hregions, by simp [hp], by simp [hp], by simp [hp], fun _ => hmessage⟩

end

theorem LayoutInv.regions {s : State} (h : LayoutInv s) {p : Phase} (hp : s.phase = p) (hread : headerRead p = true) :
    RegionsInside s := h.offsets (hp ▸ hread)

/-! ### The steps -/

/-- A header that SIZE accepts lays the regions out (41 R141, R144). -/
theorem sizeAccept_layout {n : Byte} {s : State} (htree : treeStart n ≤ s.bitLen)
    (hboundary : boundaryOk (alphabetEnd s.params.alphabetEnd n s.bitLen) s.bitLen = true) :
    LayoutInv (sizeAccept n s) := by
  have hok := (boundaryOk_iff _ _).mp hboundary
  have haend : 8 ≤ (sizeAccept n s).aend ∧ (sizeAccept n s).aend ≤ s.bitLen ∧ (sizeAccept n s).aend % 8 = 0 := by
    rw [sizeAccept_aend]
    omega
  exact .of_alphabet ⟨treeStart_eq n, htree, haend⟩ rfl ⟨le_rfl, haend.1, Nat.mod_self 8⟩

/-- A message bit taken keeps the layout of DECODE, whatever is done with it. -/
theorem LayoutInv.of_message_bit {s t : State} (h : LayoutInv s) (hp : s.phase = .decode) (hc : s.cur < s.bitLen)
    (hframe : t = { s with cur := s.cur + 1, cand := t.cand, out := t.out }) : LayoutInv t := by
  rw [hframe]
  obtain ⟨hteo, hpad, hmso, hle, halign⟩ := h.message hp
  exact .of_decode (h.regions hp rfl) hp hc ⟨hteo, hpad, hmso, by dsimp only; omega, halign⟩

theorem SeqStep.keeps_layout {s t : State} (h : SeqStep s t) (hs : LayoutInv s) : LayoutInv t := by
  cases h with
  | wait => exact hs
  | header n hp hL htree hboundary => exact sizeAccept_layout htree hboundary
  | symbol g hp hc hL =>
    obtain ⟨hge, -, halign⟩ := hs.alphabet hp
    have hregions := hs.regions hp rfl
    have ⟨_, _, _, _, hmod⟩ := hregions
    exact .of_alphabet hregions hp (by dsimp only; omega)
  | exit hp hc =>
    have hregions := hs.regions hp rfl
    have ⟨_, htso, _⟩ := hregions
    exact .of_tree hregions rfl ⟨le_rfl, htso⟩
  | node hp hc | leafRight x q rest hp hc hx hq =>
    exact .of_tree (hs.regions hp rfl) hp ⟨(hs.tree hp).trans (Nat.le_succ _), hc⟩
  | leafLast x hp hc hx hq hn hf =>
    exact .of_pad (hs.regions hp rfl) rfl rfl ⟨(hs.tree hp).trans (Nat.le_succ _), hc⟩
  | pad hp hk =>
    obtain ⟨hcur, htso⟩ := hs.pad hp
    have hteo : s.teo ≤ s.bitLen := hcur.trans_le (hs.cursor (running_of_phase hp rfl))
    obtain ⟨hle, halign⟩ := messageStart_le_and_mod_eight hteo
    exact .of_decode (hs.regions hp rfl) rfl hle ⟨htso, rfl, rfl, le_rfl, halign⟩
  | shift b hp hc hk | emit b x hp hc hk | drop b x hp hc hk => exact hs.of_message_bit hp hc rfl
  | eos | term | fails => exact .of_not_running rfl

theorem CommandStep.keeps_layout {s t : State} (h : CommandStep s t) (hs : LayoutInv s) : LayoutInv t := by
  cases h with
  | reset => exact .of_not_running rfl
  | ignored => exact hs
  | load bs hstopped | config v hstopped => exact .of_not_running hstopped
  | start => exact .of_header rfl rfl
  | result => exact ⟨hs.cursor, hs.header, hs.offsets, hs.alphabet, hs.tree, hs.pad, hs.message⟩

/-- The layout does not look at the host's moves. -/
theorem LayoutInv.of_host {s : State} (hs : LayoutInv s) (rest : List HostMove) : LayoutInv { s with host := rest } :=
  ⟨hs.cursor, hs.header, hs.offsets, hs.alphabet, hs.tree, hs.pad, hs.message⟩

/-- Settles O48: a command leaves no operation running, a new one at HEADER, or the layout as it was; the sequencer's
outcomes are the cases of `SeqStep`. -/
theorem stepKeepsTheLayout : Obligations.StepKeepsTheLayout := by
  intro s t hs h
  exact step_induction (P := fun s t => LayoutInv s → LayoutInv t) (fun _ _ => CommandStep.keeps_layout)
    (fun _ _ => SeqStep.keeps_layout) (fun s t rest ih hs => ih (hs.of_host rest)) h hs

end Sys2Proof.Machine

/-!
The tables of a running operation (10 R36 to R39; 43 R162 to R168; 44 R185): what `TablesInv` asks in each phase, what NODE,
LEAF and a message bit do to the paths of the tree, then every step keeps the tables, a case per outcome.
-/
namespace Sys2Proof.Machine

/-! ### What the tables are, phase by phase -/

/-- The symbols bound are the first LEAF entries of SYM, in order (43 R163). -/
def BindsInOrder (s : State) : Prop := s.leaf ≤ s.sym.length ∧ s.ct.map Prod.snd = s.sym.take s.leaf

/-- The walk so far (43 R168): the keys and the paths still to be read are the paths of one full binary tree, and the cursor
counts its nodes. -/
def WalkOpen (s : State) : Prop :=
  FullCode (codeKeys s.ct ++ s.frontier) ∧ s.cur = s.tso + 2 * s.leaf + s.stk.length

/-- The finished table (43 R168(b), (c)). -/
def TableFull (s : State) : Prop :=
  FullCode (codeKeys s.ct) ∧ s.leaf = s.asize.toNat ∧ s.teo + 1 = s.tso + 2 * s.leaf

/-- No key is empty or begins the candidate, and the candidate begins a key (44 R185). -/
def CandidateOpen (ct : CodeTable) (cand : Bits) : Prop :=
  [] ∉ codeKeys ct ∧ (∀ k ∈ codeKeys ct, ¬ k <+: cand) ∧ ∃ k ∈ codeKeys ct, cand <+: k

section
variable {s : State} (hnodup : s.sym.Nodup)
include hnodup

/-- With no operation running the tables are free, but for SYM's entries being different. -/
theorem TablesInv.of_not_running (h : s.running = false) : TablesInv s where
  symNodup := hnodup
  header hp := absurd hp (phase_ne_of_not_running h rfl)
  alphabet hp := absurd hp (phase_ne_of_not_running h rfl)
  symbols hp := by
    rcases hp with hp | hp | hp <;> exact absurd hp (phase_ne_of_not_running h rfl)
  tree hp := absurd hp (phase_ne_of_not_running h rfl)
  table hp := by
    rcases hp with hp | hp <;> exact absurd hp (phase_ne_of_not_running h rfl)
  cand hp := absurd hp (phase_ne_of_not_running h rfl)

theorem TablesInv.of_alphabet (hp : s.phase = .alphabet) (hct : s.ct = []) (hleaf : s.leaf = 0) : TablesInv s :=
  ⟨hnodup, by simp [hp], fun _ => ⟨hct, hleaf⟩, by simp [hp], by simp [hp], by simp [hp], by simp [hp]⟩

theorem TablesInv.of_tree (hp : s.phase = .tree) (hbinds : BindsInOrder s) (hopen : WalkOpen s) : TablesInv s :=
  ⟨hnodup, by simp [hp], by simp [hp], fun _ => hbinds, fun _ => hopen, by simp [hp], by simp [hp]⟩

theorem TablesInv.of_pad (hp : s.phase = .pad) (hbinds : BindsInOrder s) (hfull : TableFull s) : TablesInv s :=
  ⟨hnodup, by simp [hp], by simp [hp], fun _ => hbinds, by simp [hp], fun _ => hfull, by simp [hp]⟩

theorem TablesInv.of_decode (hp : s.phase = .decode) (hbinds : BindsInOrder s) (hfull : TableFull s)
    (hcand : CandidateOpen s.ct s.cand) : TablesInv s :=
  ⟨hnodup, by simp [hp], by simp [hp], fun _ => hbinds, by simp [hp], fun _ => hfull, fun _ => hcand⟩

end

theorem TablesInv.of_header {s : State} (hp : s.phase = .header) (hsym : s.sym = []) (hct : s.ct = [])
    (hleaf : s.leaf = 0) : TablesInv s :=
  ⟨hsym ▸ .nil, fun _ => ⟨hsym, hct, hleaf⟩, by simp [hp], by simp [hp], by simp [hp], by simp [hp], by simp [hp]⟩

section
variable {s : State} (h : TablesInv s)
include h

theorem TablesInv.bindsInOrder_tree (hp : s.phase = .tree) : BindsInOrder s := h.symbols (.inl hp)

theorem TablesInv.bindsInOrder_pad (hp : s.phase = .pad) : BindsInOrder s := h.symbols (.inr (.inl hp))

theorem TablesInv.bindsInOrder_decode (hp : s.phase = .decode) : BindsInOrder s := h.symbols (.inr (.inr hp))

end

/-! ### The walk -/

/-- The walk begins with the root alone still to be read. -/
theorem walkOpen_alphabetExit {s : State} (hct : s.ct = []) : WalkOpen (alphabetExit s) := by
  refine ⟨⟨.leaf, ?_⟩, rfl⟩
  simp [CodeTree.paths, codeKeys, State.frontier, hct]

theorem WalkOpen.node {s : State} (h : WalkOpen s) : WalkOpen (descendLeft s) := by
  obtain ⟨⟨tree, htree⟩, hcur⟩ := h
  exact ⟨tree.split_leaf _ _ _ htree, by simp only [descendLeft, List.length_cons]; omega⟩

/-- LEAF moves its path from the frontier to the keys. -/
theorem WalkOpen.leafRight {s : State} {q : Bits} {rest : List Bits} (x : Byte) (h : WalkOpen s)
    (hq : s.stk = q :: rest) : WalkOpen { leafRecord x s with path := q ++ [true], stk := rest } := by
  obtain ⟨hfull, hcur⟩ := h
  refine ⟨?_, ?_⟩
  · simpa [State.frontier, hq] using hfull
  · simp only [leafRecord_cur, leafRecord_tso, leafRecord_leaf, hq, List.length_cons] at hcur ⊢
    omega

/-- The last LEAF leaves no path to be read. -/
theorem WalkOpen.leafKeys {s : State} (x : Byte) (h : WalkOpen s) (hq : s.stk = []) :
    FullCode (codeKeys (codeInsert s.ct s.path x)) := by
  obtain ⟨hfull, -⟩ := h
  simpa [State.frontier, hq] using hfull

theorem WalkOpen.leafLast {s : State} (x : Byte) (h : WalkOpen s) (hq : s.stk = []) (hn : s.leaf + 1 = s.asize.toNat) :
    TableFull { leafRecord x s with teo := s.cur + 1, phase := .pad } := by
  refine ⟨h.leafKeys x hq, hn, ?_⟩
  obtain ⟨-, hcur⟩ := h
  simp only [leafRecord_tso, leafRecord_leaf, hq, List.length_nil] at hcur ⊢
  omega

theorem BindsInOrder.leafRecord {s : State} {x : Byte} (h : BindsInOrder s) (hx : s.sym[s.leaf]? = some x) :
    BindsInOrder (leafRecord x s) := by
  obtain ⟨-, hct⟩ := h
  obtain ⟨hlt, -⟩ := List.getElem?_eq_some_iff.mp hx
  exact ⟨hlt, by simp [codeInsert, hct, List.take_add_one, hx]⟩

/-! ### The candidate -/

/-- With no empty key, the empty candidate is open. -/
theorem candidateOpen_nil {ct : CodeTable} (hfull : FullCode (codeKeys ct)) (hkey : [] ∉ codeKeys ct) :
    CandidateOpen ct [] := by
  refine ⟨hkey, fun k hk hprefix => hkey (List.prefix_nil.mp hprefix ▸ hk), ?_⟩
  obtain ⟨k, hk, -⟩ := hfull.complete []
  exact ⟨k, hk, List.nil_prefix⟩

/-- A bit that completes no key leaves the candidate open: the code is complete (43 R168(d)). -/
theorem CandidateOpen.snoc {ct : CodeTable} {cand : Bits} {b : Bool} (h : CandidateOpen ct cand)
    (hfull : FullCode (codeKeys ct)) (hk : codeLookup ct (cand ++ [b]) = none) : CandidateOpen ct (cand ++ [b]) := by
  obtain ⟨hempty, hcand, -⟩ := h
  have hbegins : ∀ k ∈ codeKeys ct, ¬ k <+: cand ++ [b] := by
    intro k hkey hprefix
    rcases List.prefix_concat_iff.mp hprefix with rfl | hprefix
    · exact (codeLookup_eq_none _ _).mp hk hkey
    · exact hcand k hkey hprefix
  obtain ⟨k, hkey, hprefix | hprefix⟩ := hfull.complete (cand ++ [b])
  · exact absurd hprefix (hbegins k hkey)
  · exact ⟨hempty, hbegins, k, hkey, hprefix⟩

/-- A step of DECODE keeps the tables when it leaves an open candidate and writes beside it the cursor and the message. -/
theorem TablesInv.of_message_bit {s t : State} (h : TablesInv s) (hp : s.phase = .decode)
    (hcand : CandidateOpen s.ct t.cand) (hframe : t = { s with cur := t.cur, cand := t.cand, out := t.out }) :
    TablesInv t := by
  rw [hframe]
  exact .of_decode h.symNodup hp (h.bindsInOrder_decode hp) (h.table (.inr hp)) hcand

/-- A bit that completes a key leaves the empty candidate. -/
theorem TablesInv.candidateOpen_nil {s : State} (h : TablesInv s) (hp : s.phase = .decode) : CandidateOpen s.ct [] :=
  Machine.candidateOpen_nil (h.table (.inr hp)).1 (h.cand hp).1

/-! ### The steps -/

theorem SeqStep.keeps_tables {s t : State} (h : SeqStep s t) (hs : TablesInv s) : TablesInv t := by
  have hnodup := hs.symNodup
  cases h with
  | wait => exact hs
  | header n hp =>
    obtain ⟨-, hct, hleaf⟩ := hs.header hp
    exact .of_alphabet hnodup rfl hct hleaf
  | symbol g hp =>
    obtain ⟨hct, hleaf⟩ := hs.alphabet hp
    exact .of_alphabet (symInsert_nodup g hnodup) hp hct hleaf
  | exit hp =>
    obtain ⟨hct, -⟩ := hs.alphabet hp
    exact .of_tree hnodup rfl ⟨Nat.zero_le _, congrArg (List.map Prod.snd) hct⟩ (walkOpen_alphabetExit hct)
  | node hp => exact .of_tree hnodup hp (hs.bindsInOrder_tree hp) (WalkOpen.node (hs.tree hp))
  | leafRight x q rest hp hc hx hq =>
    exact .of_tree hnodup hp ((hs.bindsInOrder_tree hp).leafRecord hx) (WalkOpen.leafRight x (hs.tree hp) hq)
  | leafLast x hp hc hx hq hn =>
    exact .of_pad hnodup rfl ((hs.bindsInOrder_tree hp).leafRecord hx) (WalkOpen.leafLast x (hs.tree hp) hq hn)
  | pad hp hk =>
    have hfull : TableFull s := hs.table (.inl hp)
    have ⟨hcode, _⟩ := hfull
    exact .of_decode hnodup rfl (hs.bindsInOrder_pad hp) hfull
      (candidateOpen_nil hcode ((codeLookup_eq_none _ _).mp hk))
  | shift b hp hc hk =>
    obtain ⟨hcode, -⟩ := hs.table (.inr hp)
    exact hs.of_message_bit hp (CandidateOpen.snoc (hs.cand hp) hcode hk) rfl
  | emit b x hp | drop b x hp => exact hs.of_message_bit hp (hs.candidateOpen_nil hp) rfl
  | eos | term | fails => exact .of_not_running hnodup rfl

theorem CommandStep.keeps_tables {s t : State} (h : CommandStep s t) (hs : TablesInv s) : TablesInv t := by
  cases h with
  | reset => exact .of_not_running .nil rfl
  | ignored => exact hs
  | load bs hstopped | config v hstopped => exact .of_not_running hs.symNodup hstopped
  | start => exact .of_header rfl rfl rfl rfl
  | result => exact ⟨hs.symNodup, hs.header, hs.alphabet, hs.symbols, hs.tree, hs.table, hs.cand⟩

/-- The tables do not look at the host's moves. -/
theorem TablesInv.of_host {s : State} (hs : TablesInv s) (rest : List HostMove) : TablesInv { s with host := rest } :=
  ⟨hs.symNodup, hs.header, hs.alphabet, hs.symbols, hs.tree, hs.table, hs.cand⟩

/-- Settles O49: NODE splits a path of the tree, LEAF moves one from the frontier to the keys, and a message bit keeps the
candidate open because the code is complete; the other outcomes write no table. -/
theorem stepKeepsTheTables : Obligations.StepKeepsTheTables := by
  intro s t hs h
  exact step_induction (P := fun s t => TablesInv s → TablesInv t) (fun _ _ => CommandStep.keeps_tables)
    (fun _ _ => SeqStep.keeps_tables) (fun s t rest ih hs => ih (hs.of_host rest)) h hs

/-! ### The check of tree completion -/

/-- The paths of a tree pass the check of PrefixFree (43 R167, R168(c)). -/
theorem WalkOpen.prefixFree_leafLast {s : State} (x : Byte) (h : WalkOpen s) (hq : s.stk = []) :
    prefixFree (codeInsert s.ct s.path x) = true := (prefixFree_iff _).mpr (h.leafKeys x hq).prefixFree

theorem Raises.ne_invalidPrefixCode {s : State} {ph : Phase} {k : ErrKind} (h : Raises s ph k) (hs : TablesInv s) :
    k ≠ .invalidPrefixCode := by
  intro hkind
  obtain ⟨hp, x, -, hq, hfails⟩ := h.code hkind
  have hpasses := WalkOpen.prefixFree_leafLast x (hs.tree hp) hq
  exact Bool.false_ne_true (hfails.symm.trans hpasses)

theorem SeqStep.err_ne_invalidPrefixCode {s t : State} (h : SeqStep s t) (hs : TablesInv s)
    (herr : s.err ≠ .invalidPrefixCode) : t.err ≠ .invalidPrefixCode := by
  cases h with
  | fails ph k pos hraises => exact hraises.ne_invalidPrefixCode hs
  | wait | header | symbol | exit | node | leafRight | leafLast | pad | eos | shift | emit | term | drop => exact herr

theorem CommandStep.err_ne_invalidPrefixCode {s t : State} (h : CommandStep s t) (herr : s.err ≠ .invalidPrefixCode) :
    t.err ≠ .invalidPrefixCode := by
  cases h with
  | reset | start => exact ErrKind.noConfusion
  | ignored | load | config | result => exact herr

/-- Settles O51: the only outcome that writes ERR is a raise, and the raise of this kind contradicts that the keys and the
path of the last LEAF are the paths of a tree. -/
theorem invalidPrefixCodeIsNeverRaised : Obligations.InvalidPrefixCodeIsNeverRaised := by
  intro s t hs herr h
  exact step_induction (P := fun s t => TablesInv s → s.err ≠ .invalidPrefixCode → t.err ≠ .invalidPrefixCode)
    (fun _ _ hstep _ => hstep.err_ne_invalidPrefixCode) (fun _ _ => SeqStep.err_ne_invalidPrefixCode)
    (fun s t rest ih hs => ih (hs.of_host rest)) h hs herr

end Sys2Proof.Machine

/-!
BitReader (40): one rule of BIT and SLICE per answer and per raise, the number of a bit string, wide reads beside single ones,
then the statements.
-/
namespace Sys2Proof.Machine

/-! ### What the reads answer -/

theorem exec_bit_of_memBit {s : State} {i : Nat} {b : Bool} (hb : memBit s.bytes i = some b) :
    exec (.bit i) s = .next (setReply (.bit b) s) := by
  simp [exec, execBit, hb]

theorem exec_bit_of_end {s : State} {i : Nat} (hi : s.bitLen ≤ i) :
    exec (.bit i) s = .next (raise .outOfRange i s) := by
  simp [exec, execBit, memBit_none_of_le s.bytes i hi]

theorem exec_slice_of_memSlice {s : State} {lo hi : Nat} {w : Bits} (hw : memSlice s.bytes lo hi = some w) :
    exec (.slice lo hi) s = .next (setReply (.slice w) s) := by
  simp [exec, execSlice, hw]

theorem exec_slice_of_bad_range {s : State} {lo hi : Nat} (h : hi < lo ∨ s.bitLen < hi) :
    exec (.slice lo hi) s = .next (raise .outOfRange hi s) := by
  have hw : memSlice s.bytes lo hi = none := if_pos h
  simp [exec, execSlice, hw]

@[simp] theorem exec_uint (w : Bits) (s : State) : exec (.uint w) s = .next (setReply (.uint (bitsToNat w)) s) := rfl

/-- A bit below `L` as a digit of the byte it stands in (20 R61). -/
theorem memBit_eq_digit {m : Memory} {i : Nat} {x : Byte} (hi : i < memBitLen m) (hx : memRead m (i / 8) = some x) :
    memBit m i = some (decide (x.toNat / 2 ^ (7 - i % 8) % 2 = 1)) := by
  rw [memBit_eq_some hi hx, byte_getMsbD_eq_decide x (by omega)]

/-! ### The number of a bit string (00 R9) -/

theorem bitsToNat_lt (w : Bits) : bitsToNat w < 2 ^ w.length := by
  induction w with
  | nil => exact Nat.one_pos
  | cons b w ih =>
    have hb : b.toNat * 2 ^ w.length ≤ 1 * 2 ^ w.length := Nat.mul_le_mul_right _ b.toNat_le
    rw [bitsToNat_cons, List.length_cons, Nat.pow_succ]
    omega

/-- Bit strings of one length are named by their numbers. -/
theorem bitsToNat_injective {u v : Bits} (hlen : u.length = v.length) (h : bitsToNat u = bitsToNat v) : u = v := by
  induction u generalizing v with
  | nil => exact (List.length_eq_zero_iff.mp hlen.symm).symm
  | cons a u ih =>
    cases v with
    | nil => cases hlen
    | cons b v =>
      have hlen' : u.length = v.length := Nat.succ.inj hlen
      have hu := bitsToNat_lt u
      have hv := bitsToNat_lt v
      rw [bitsToNat_cons, bitsToNat_cons, hlen'] at h
      rw [hlen'] at hu
      have hab : a = b := by
        cases a <;> cases b <;> simp at h ⊢ <;> omega
      rw [hab, Nat.add_left_cancel_iff] at h
      rw [hab, ih hlen' h]

/-- Eight bits are the bits of the byte they name (20 R61, R62). -/
theorem byteBits_bitsToNat {w : Bits} (hlen : w.length = 8) : byteBits (BitVec.ofNat 8 (bitsToNat w)) = w := by
  have hlt : bitsToNat w < 2 ^ 8 := hlen ▸ bitsToNat_lt w
  refine bitsToNat_injective ((byteBits_length _).trans hlen.symm) ?_
  rw [bitsToNat_byteBits, BitVec.toNat_ofNat, Nat.mod_eq_of_lt hlt]

/-! ### The statements -/

/-- Settles O10: inside the input BIT answers a digit of its byte, at or above `L` it raises. -/
theorem bitReadsOneBit : Obligations.BitReadsOneBit := by
  intro s i
  exact ⟨fun x hi hx => exec_bit_of_memBit (memBit_eq_digit hi hx), exec_bit_of_end⟩

/-- Settles O11: a range inside a canonical memory has a slice, whose bits are those BIT answers; any other range raises. -/
theorem sliceReadsTheRange : Obligations.SliceReadsTheRange := by
  intro s lo hi
  refine ⟨fun hwf hle hin => ?inside, exec_slice_of_bad_range⟩
  case inside =>
    obtain ⟨w, hw⟩ := memSlice_isSome hwf hle hin
    obtain ⟨-, -, hlen, hbits⟩ := memSlice_eq_some hw
    refine ⟨w, exec_slice_of_memSlice hw, hlen, fun j x hj hx => ?_⟩
    have hlt : lo + j < s.bitLen := by omega
    rw [hbits j hj, memBit_eq_digit hlt hx]

/-- Settles O12: the rule of UINT, and the recursion and the bound of the number it answers. -/
theorem uintFirstBitMostSignificant : Obligations.UintFirstBitMostSignificant :=
  ⟨exec_uint, rfl, bitsToNat_cons, bitsToNat_lt⟩

/-- Settles O13: the bits of a slice are those BIT answers; a byte-aligned slice of a loaded input is the string of its byte,
which names it. -/
theorem wideReadsAgreeWithBits : Obligations.WideReadsAgreeWithBits := by
  refine ⟨fun m a b i w hw hle hlt => ?slice, fun bs k b hb => ?byte⟩
  case slice =>
    obtain ⟨-, -, -, hbits⟩ := memSlice_eq_some hw
    rw [hbits (i - a) (by omega), Nat.add_sub_cancel' hle]
  case byte =>
    have hread : memRead (memOfBytes bs) k = some b := by rw [memRead_memOfBytes, hb]
    exact ⟨byteBits b, memSlice_byte (memOfBytes_wf bs) hread, bitsToNat_byteBits b⟩

end Sys2Proof.Machine

/-!
The decoder and the encoder (30 R90 to R103): a byte field both ways, a CODE as the first key the bits begin with both ways,
then the statements, a case per format.
-/
namespace Sys2Proof.Machine

/-! ### The format of each phase (30 R90) -/

section
variable {c : DecodeContext}

theorem decode_header (hp : c.phase = .header) (bits : Bits) : decode c bits = decodeByte .size bits := by
  simp [decode, hp]

theorem decode_alphabet (hp : c.phase = .alphabet) (bits : Bits) : decode c bits = decodeByte .sym bits := by
  simp [decode, hp]

theorem decode_tree_cons (hp : c.phase = .tree) (b : Bool) (bits : Bits) :
    decode c (b :: bits) = .instr (if b then .leaf else .node) bits := by
  cases b <;> simp [decode, hp]

theorem decode_tree_nil (hp : c.phase = .tree) : decode c [] = .short := by
  simp [decode, hp]

theorem decode_pad (hp : c.phase = .pad) (bits : Bits) : decode c bits = .instr .pad (bits.drop c.padLen) := by
  simp [decode, hp]

theorem decode_decode_nil (hp : c.phase = .decode) : decode c [] = .instr .eos [] := by
  simp [decode, hp]

theorem decode_decode_of_ne_nil (hp : c.phase = .decode) {bits : Bits} (hne : bits ≠ []) :
    decode c bits = matchCode c.ct c.cfg c.cand bits := by
  obtain ⟨b, bits, rfl⟩ := List.exists_cons_of_ne_nil hne
  simp [decode, hp]

theorem decode_not_running (hp : phaseRunning c.phase = false) (bits : Bits) : decode c bits = .noElement := by
  cases hphase : c.phase with
  | idle | done | error => simp [decode, hphase]
  | header | alphabet | tree | pad | decode => simp [hphase, phaseRunning] at hp

end

/-! ### A byte field (30 R98) -/

theorem decodeByte_byteBits (f : Byte → Instr) (b : Byte) (rest : Bits) :
    decodeByte f (byteBits b ++ rest) = .instr (f b) rest := by
  simp [decodeByte, bitsToNat_byteBits]

theorem decodeByte_eq_instr {f : Byte → Instr} {bits rest : Bits} {i : Instr} (h : decodeByte f bits = .instr i rest) :
    ∃ b, i = f b ∧ bits = byteBits b ++ rest := by
  unfold decodeByte at h
  split at h
  next hlen =>
    cases h
    refine ⟨_, rfl, ?_⟩
    rw [byteBits_bitsToNat (List.length_take_of_le hlen), List.take_append_drop]
  next => cases h

/-! ### A CODE (30 R96, R99, R100) -/

@[simp] theorem encode_classifyCode (padLen : Nat) (cfg : Word) (x : Byte) (k : Bits) :
    encode padLen (classifyCode cfg x k) = some k := by
  rcases classifyCode_isCode cfg x k with hcode | hcode | hcode <;> rw [hcode] <;> rfl

section
variable {ct : CodeTable} {cfg : Word}

/-- Bits that begin with a key, and with no shorter one, are matched by it, from any part `p` of it on. -/
theorem matchCode_of_first_key {k : Bits} {x : Byte} (hfirst : ∀ p, p <+: k → p ≠ k → codeLookup ct p = none)
    (hk : codeLookup ct k = some x) (w rest : Bits) {p : Bits} (hw : w ≠ []) (hpw : p ++ w = k) :
    matchCode ct cfg p (w ++ rest) = .instr (classifyCode cfg x k) rest := by
  induction w generalizing p with
  | nil => contradiction
  | cons b w ih =>
    have hpw : p ++ [b] ++ w = k := by rw [← hpw, List.append_assoc, List.singleton_append]
    rw [List.cons_append, matchCode]
    by_cases hlast : w = []
    · rw [hlast, List.append_nil] at hpw
      rw [hpw, hk, hlast, List.nil_append]
    · have hproper : p ++ [b] ≠ k := fun heq => hlast (List.self_eq_append_right.mp (heq.trans hpw.symm))
      rw [hfirst _ ⟨w, hpw⟩ hproper]
      exact ih hlast hpw

/-- What the matcher answers, it has read: the key is the candidate and the bits taken from the input. -/
theorem matchCode_eq_instr {cand bits rest : Bits} {i : Instr} (h : matchCode ct cfg cand bits = .instr i rest) :
    ∃ w x, i = classifyCode cfg x (cand ++ w) ∧ bits = w ++ rest := by
  induction bits generalizing cand with
  | nil => cases h
  | cons b bits ih =>
    rw [matchCode] at h
    split at h
    next x hx =>
      cases h
      exact ⟨[b], x, rfl, rfl⟩
    next =>
      obtain ⟨w, x, hi, hbits⟩ := ih h
      exact ⟨b :: w, x, by rw [hi, List.append_assoc, List.singleton_append], by rw [hbits, List.cons_append]⟩

end

section
variable {c : DecodeContext} {k rest : Bits}

/-- The bits of a CODE in a context that selects it (30 R96). -/
theorem decode_of_first_key {x : Byte} (hp : c.phase = .decode) (hcand : c.cand = []) (hne : k ≠ [])
    (hfirst : ∀ p, p <+: k → p ≠ k → codeLookup c.ct p = none) (hk : codeLookup c.ct k = some x) :
    decode c (k ++ rest) = .instr (classifyCode c.cfg x k) rest := by
  rw [decode_decode_of_ne_nil hp (List.append_ne_nil_of_left_ne_nil hne rest), hcand]
  exact matchCode_of_first_key hfirst hk k rest hne rfl

theorem ne_nil_of_codeKeyOk (h : codeKeyOk k = true) : k ≠ [] := by
  rintro rfl
  cases h

theorem decode_of_selects_code {i : Instr} (hkey : codeKeyOk k = true)
    (h : c.phase = .decode ∧ c.cand = [] ∧ (∀ p, p <+: k → p ≠ k → codeLookup c.ct p = none) ∧
      ∃ x, codeLookup c.ct k = some x ∧ classifyCode c.cfg x k = i) :
    decode c (k ++ rest) = .instr i rest := by
  obtain ⟨hp, hcand, hfirst, x, hk, rfl⟩ := h
  exact decode_of_first_key hp hcand (ne_nil_of_codeKeyOk hkey) hfirst hk

end

/-! ### The statements -/

/-- Settles O58: a case per format; a byte field names its byte, and a CODE is the first key its bits begin with. -/
theorem decodeOfEncode : Obligations.DecodeOfEncode := by
  intro c i w rest hwf hw hsel
  cases i with
  | size b =>
    cases hw
    rw [decode_header hsel, decodeByte_byteBits]
  | sym b =>
    cases hw
    rw [decode_alphabet hsel, decodeByte_byteBits]
  | node | leaf =>
    cases hw
    exact decode_tree_cons hsel _ rest
  | pad =>
    cases hw
    rw [decode_pad hsel, List.drop_left' List.length_replicate]
  | eos =>
    cases hw
    obtain ⟨hp, rfl⟩ := hsel
    exact decode_decode_nil hp
  | codeEmit k | codeTerm k | codeDrop k =>
    cases hw
    exact decode_of_selects_code hwf hsel
  | load | bit | slice | uint | reset | config | start | result => cases hw

/-- Settles O59: a case per phase that has elements; a byte is its bits, and a CODE is the bits the matcher took. -/
theorem encodeOfDecode : Obligations.EncodeOfDecode := by
  intro c i bits rest hcand hpad h
  cases hp : c.phase with
  | header =>
    rw [decode_header hp] at h
    obtain ⟨b, rfl, hbits⟩ := decodeByte_eq_instr h
    exact ⟨byteBits b, rfl, hbits⟩
  | alphabet =>
    rw [decode_alphabet hp] at h
    obtain ⟨b, rfl, hbits⟩ := decodeByte_eq_instr h
    exact ⟨byteBits b, rfl, hbits⟩
  | tree =>
    cases bits with
    | nil => rw [decode_tree_nil hp] at h; cases h
    | cons b bits =>
      rw [decode_tree_cons hp] at h
      cases h
      exact ⟨[b], by cases b <;> rfl, rfl⟩
  | pad => exact absurd hp hpad
  | decode =>
    by_cases hend : bits = []
    · rw [hend, decode_decode_nil hp] at h
      cases h
      exact ⟨[], rfl, hend⟩
    · rw [decode_decode_of_ne_nil hp hend, hcand] at h
      obtain ⟨w, x, rfl, hbits⟩ := matchCode_eq_instr h
      exact ⟨w, encode_classifyCode _ _ _ _, hbits⟩
  | idle | done | error =>
    rw [decode_not_running (by rw [hp]; rfl)] at h
    cases h

end Sys2Proof.Machine

/-!
`ExtractAlphabet` (42 R153, R154): what `extractGroups` does to the list it extends, by induction on the groups, then the
groups of a byte sequence, then the statements.
-/
namespace Sys2Proof.Machine

/-! ### The groups collected -/

section
variable (bits : Bits)

theorem extractGroups_add (m n c : Nat) (sym : List Byte) :
    extractGroups bits (m + n) c sym = extractGroups bits n (c + 8 * m) (extractGroups bits m c sym) := by
  induction m generalizing c sym with
  | zero => rw [Nat.zero_add]; rfl
  | succ m ih =>
    rw [Nat.succ_add, extractGroups, extractGroups, ih]
    congr 1
    omega

theorem extractGroups_nodup (n c : Nat) {sym : List Byte} (h : sym.Nodup) : (extractGroups bits n c sym).Nodup := by
  induction n generalizing c sym with
  | zero => exact h
  | succ n ih => exact ih (c + 8) (symInsert_nodup _ h)

theorem extractGroups_prefix (n c : Nat) (sym : List Byte) : sym <+: extractGroups bits n c sym := by
  induction n generalizing c sym with
  | zero => exact List.prefix_rfl
  | succ n ih => exact (symInsert_prefix sym _).trans (ih (c + 8) _)

theorem symInsert_length_le (sym : List Byte) (g : Byte) : (symInsert sym g).length ≤ sym.length + 1 := by
  by_cases hg : g ∈ sym
  · rw [symInsert_of_mem hg]
    exact Nat.le_succ _
  · rw [symInsert_of_notMem hg, List.length_append, List.length_singleton]

theorem extractGroups_length_le (n c : Nat) (sym : List Byte) : (extractGroups bits n c sym).length ≤ sym.length + n := by
  induction n generalizing c sym with
  | zero => exact le_rfl
  | succ n ih =>
    have hrest := ih (c + 8) (symInsert sym (alphabetGroup bits c))
    have hfirst := symInsert_length_le sym (alphabetGroup bits c)
    rw [extractGroups]
    omega

theorem mem_extractGroups (n c : Nat) (sym : List Byte) (x : Byte) :
    x ∈ extractGroups bits n c sym ↔ x ∈ sym ∨ ∃ j < n, alphabetGroup bits (c + 8 * j) = x := by
  induction n generalizing c sym with
  | zero => simp [extractGroups]
  | succ n ih =>
    have hshift : ∀ j, c + 8 * (j + 1) = c + 8 + 8 * j := by omega
    rw [extractGroups, ih, mem_symInsert, Nat.exists_lt_succ_left, or_assoc, eq_comm (a := x)]
    simp only [hshift, Nat.mul_zero, Nat.add_zero]

/-- There are 256 bytes (42 R154(d)). -/
theorem length_le_of_nodup_bytes {l : List Byte} (h : l.Nodup) : l.length ≤ 256 := by
  have hcard : Fintype.card Byte = 256 := (Fintype.card_congr BitVec.equivFin.toEquiv).trans (Fintype.card_fin _)
  exact h.length_le_card.trans_eq hcard

theorem mem_extractAlphabet (aend : Nat) (x : Byte) :
    x ∈ extractAlphabet bits aend ↔ ∃ j < (aend - 8) / 8, alphabetGroup bits (8 + 8 * j) = x := by
  simp [extractAlphabet, mem_extractGroups]

/-- A longer region only appends (42 R154(e)). -/
theorem extractAlphabet_prefix {aend aend' : Nat} (h : aend ≤ aend') :
    extractAlphabet bits aend <+: extractAlphabet bits aend' := by
  obtain ⟨d, hd⟩ : ∃ d, (aend' - 8) / 8 = (aend - 8) / 8 + d := Nat.exists_eq_add_of_le (by omega)
  rw [extractAlphabet, extractAlphabet, hd, extractGroups_add]
  exact extractGroups_prefix bits d _ _

end

/-! ### The groups of a byte sequence -/

/-- The entries are the bytes 1 to `AEND/8 - 1` (42 R153, second form). -/
theorem mem_extractAlphabet_bytesBits {bs : List Byte} {aend : Nat} (h : aend ≤ 8 * bs.length) (x : Byte) :
    x ∈ extractAlphabet (bytesBits bs) aend ↔ ∃ j, 1 ≤ j ∧ 8 * (j + 1) ≤ aend ∧ bs[j]? = some x := by
  have hgroup : ∀ j, 8 * (j + 2) ≤ aend → (alphabetGroup (bytesBits bs) (8 + 8 * j) = x ↔ bs[j + 1]? = some x) := by
    intro j hj
    have hbyte : bs[j + 1]? = some bs[j + 1] := List.getElem?_eq_getElem (by omega)
    rw [show 8 + 8 * j = 8 * (j + 1) by omega, alphabetGroup_bytesBits hbyte, hbyte, Option.some_inj]
  rw [mem_extractAlphabet]
  constructor
  · rintro ⟨j, hj, hx⟩
    exact ⟨j + 1, by omega, by omega, (hgroup j (by omega)).mp hx⟩
  · rintro ⟨j, hj, hend, hx⟩
    obtain ⟨j, rfl⟩ : ∃ i, j = i + 1 := ⟨j - 1, by omega⟩
    exact ⟨j, by omega, (hgroup j hend).mpr hx⟩

/-- What the shorter list holds comes before what it does not. -/
theorem idxOf_lt_idxOf_of_prefix {l l' : List Byte} {x y : Byte} (h : l <+: l') (hx : x ∈ l) (hy : y ∉ l) :
    l'.idxOf x < l'.idxOf y := by
  obtain ⟨rest, rfl⟩ := h
  rw [List.idxOf_append_of_mem hx, List.idxOf_append_of_notMem hy]
  exact (List.idxOf_lt_length_iff.mpr hx).trans_le (Nat.le_add_right _ _)

/-! ### The statements -/

/-- Settles O18: the run of the phase's steps, whose last cursor is the boundary. -/
theorem alphabetPhaseIsExtractAlphabet : Obligations.AlphabetPhaseIsExtractAlphabet := by
  intro s hhost hp hcur hsym hge hle hmod hwf
  have hend : s.cur + 8 * ((s.aend - 8) / 8) = s.aend := by omega
  have hrun := runSteps_alphabet ((s.aend - 8) / 8) hhost hwf hp (by omega) hend.le hle
  rwa [hend, hcur, hsym] at hrun

/-- Settles O19: the laws of `extractGroups` from the empty list; the order, because the region up to byte `i` lists `x` and
not `y`, and the longer region only appends. -/
theorem extractAlphabetLaws : Obligations.ExtractAlphabetLaws := by
  refine ⟨fun bits aend => ?bounds, fun bits _ _ => extractAlphabet_prefix bits,
    fun bs aend x hin => mem_extractAlphabet_bytesBits hin x, fun bs aend i x y hin hi hend hx hy hmem => ?order⟩
  case bounds =>
    have hnodup : (extractAlphabet bits aend).Nodup := extractGroups_nodup bits _ 8 .nil
    have hlen : (extractAlphabet bits aend).length ≤ 0 + (aend - 8) / 8 := extractGroups_length_le bits _ 8 []
    refine ⟨hnodup, length_le_of_nodup_bytes hnodup, by omega, fun hge => ?_⟩
    exact List.length_pos_of_mem ((mem_extractAlphabet bits aend _).mpr ⟨0, by omega, rfl⟩)
  case order =>
    have hregion := mem_extractAlphabet_bytesBits (hend.trans hin)
    have hlisted := (hregion x).mpr ⟨i, hi, le_rfl, hx⟩
    have hnot : y ∉ extractAlphabet (bytesBits bs) (8 * (i + 1)) := by
      intro hlisted
      obtain ⟨j, hj, hle, hbyte⟩ := (hregion y).mp hlisted
      exact hy j hj (by omega) hbyte
    exact idxOf_lt_idxOf_of_prefix (extractAlphabet_prefix _ hend) hlisted hnot

end Sys2Proof.Machine

/-!
`Walk` (43 R161, R168, R169): the run that carries a walk out ends as the walk does, and a walk that succeeds reads the bits
of one tree and takes a symbol for each leaf.
-/
namespace Sys2Proof.Machine

/-! ### The run of the phase -/

/-- The last LEAF of a walk that finds no node waiting completes the tree on the walk's results. -/
theorem CarriesOutWalk.completes {s : State} {ct : CodeTable} {c k : Nat} (hhost : s.host = []) (hp : s.phase = .tree)
    (hq : s.stk = []) (h : CarriesOutWalk s (.ok ct c k)) :
    ∃ u, runSteps (c - s.cur - 1) s = .next u ∧ u.stk = [] ∧ u.phase = .tree ∧
      step u = .next (completeTree u { u with ct := ct, cur := c, leaf := k }) := by
  obtain ⟨-, -, u, x, hrun, hstep, hstk, -, hx, hrecord⟩ := h.lastLeaf hhost hp
  have hct : (leafRecord x u).ct = ct := congrArg State.ct hrecord
  have hcur : (leafRecord x u).cur = c := congrArg State.cur hrecord
  have hleaf : (leafRecord x u).leaf = k := congrArg State.leaf hrecord
  refine ⟨u, hrun, hstk.trans hq, (congrArg State.phase hrecord).trans hp, ?_⟩
  rw [hstep, exec_leaf_of_none_waiting hx (hstk.trans hq), ← hct, ← hcur, ← hleaf]
  rfl

/-- Settles O23: the machine carries the walk out; then by the walk's result and the node waiting. -/
theorem treePhaseIsWalk : Obligations.TreePhaseIsWalk := by
  intro fuel s hhost hp hwf hfuel
  have hwalk := carriesOutWalk fuel hhost hwf hp hfuel
  refine ⟨fun ct c k q rest hok hq => ?waiting, fun ct c k hok hq => ?last, fun kind pos herror => ?error⟩
  case waiting =>
    rw [hok] at hwalk
    obtain ⟨-, -, hrun⟩ := runSteps_of_walk_waiting hhost hp hq hwalk
    exact hrun
  case last =>
    rw [hok] at hwalk
    exact hwalk.completes hhost hp hq
  case error =>
    rw [herror] at hwalk
    obtain ⟨n, u, -, hrun, hphase, -⟩ := hwalk
    exact ⟨n, raise kind pos u, hrun, rfl, rfl, rfl, hphase⟩

/-! ### The bits of one tree -/

/-- Self-delimiting (43 R168(a)): one more `1` than `0`, and no more `1` than `0` before the last bit. -/
def TreeBits (w : Bits) : Prop :=
  w.count true = w.count false + 1 ∧ ∀ n < w.length, (w.take n).count true ≤ (w.take n).count false

theorem treeBits_leaf : TreeBits [true] := by
  refine ⟨rfl, fun n hn => ?_⟩
  obtain rfl : n = 0 := Nat.lt_one_iff.mp hn
  exact le_rfl

theorem TreeBits.node {u v : Bits} (hu : TreeBits u) (hv : TreeBits v) : TreeBits (false :: (u ++ v)) := by
  obtain ⟨hu, huprefix⟩ := hu
  obtain ⟨hv, hvprefix⟩ := hv
  refine ⟨?_, fun n hn => ?_⟩
  · rw [List.count_cons_of_ne (by decide), List.count_cons_self, List.count_append, List.count_append]
    omega
  · cases n with
    | zero => exact le_rfl
    | succ n =>
      rw [List.take_succ_cons, List.count_cons_of_ne (by decide), List.count_cons_self]
      by_cases hleft : n < u.length
      · rw [List.take_append_of_le_length hleft.le]
        exact (huprefix n hleft).trans (Nat.le_succ _)
      · have hright := hvprefix (n - u.length) (by simp at hn; omega)
        rw [List.take_append, List.take_of_length_le (not_lt.mp hleft), List.count_append, List.count_append]
        omega

/-! ### What a walk reads -/

theorem append_prefix_drop {α : Type} {l u v : List α} {c : Nat} (hu : u <+: l.drop c)
    (hv : v <+: l.drop (c + u.length)) : u ++ v <+: l.drop c := by
  obtain ⟨rest, hrest⟩ := hu
  rw [← List.drop_drop, ← hrest, List.drop_left] at hv
  rw [← hrest]
  exact (List.prefix_append_right_inj u).mpr hv

theorem singleton_prefix_drop {α : Type} {l : List α} {c : Nat} {x : α} (h : l[c]? = some x) : [x] <+: l.drop c := by
  obtain ⟨hlt, rfl⟩ := List.getElem?_eq_some_iff.mp h
  rw [List.drop_eq_getElem_cons hlt]
  exact ⟨_, rfl⟩

/-- From bit `c` and symbol `k` on the bits of one tree are read, with a symbol bound for each `1`, up to `c'` and `k'`. -/
def ReadsTree (bits : Bits) (sym : List Byte) (c k : Nat) (ct ct' : CodeTable) (c' k' : Nat) : Prop :=
  ∃ w xs, TreeBits w ∧ w <+: bits.drop c ∧ c' = c + w.length ∧ xs <+: sym.drop k ∧ xs.length = w.count true ∧
    k' = k + xs.length ∧ ct'.map Prod.snd = ct.map Prod.snd ++ xs

theorem readsTree_leaf {bits : Bits} {sym : List Byte} {c k : Nat} {x : Byte} (ct : CodeTable) (path : Bits)
    (hb : bits[c]? = some true) (hx : sym[k]? = some x) :
    ReadsTree bits sym c k ct (codeInsert ct path x) (c + 1) (k + 1) :=
  ⟨[true], [x], treeBits_leaf, singleton_prefix_drop hb, rfl, singleton_prefix_drop hx, rfl, rfl, by simp [codeInsert]⟩

theorem ReadsTree.node {bits : Bits} {sym : List Byte} {c c₁ c₂ k k₁ k₂ : Nat} {ct ct₁ ct₂ : CodeTable}
    (hb : bits[c]? = some false) (hleft : ReadsTree bits sym (c + 1) k ct ct₁ c₁ k₁)
    (hright : ReadsTree bits sym c₁ k₁ ct₁ ct₂ c₂ k₂) : ReadsTree bits sym c k ct ct₂ c₂ k₂ := by
  obtain ⟨u, xs, hu, hubits, rfl, hxs, hxslen, rfl, hct₁⟩ := hleft
  obtain ⟨v, ys, hv, hvbits, rfl, hys, hyslen, rfl, hct₂⟩ := hright
  refine ⟨false :: (u ++ v), xs ++ ys, hu.node hv, ?_, ?_, append_prefix_drop hxs hys, ?_, ?_, ?_⟩
  · exact append_prefix_drop (singleton_prefix_drop hb) (append_prefix_drop hubits hvbits)
  · rw [List.length_cons, List.length_append]
    omega
  · rw [List.length_append, List.count_cons_of_ne (by decide), List.count_append, hxslen, hyslen]
  · rw [List.length_append, Nat.add_assoc]
  · rw [hct₂, hct₁, List.append_assoc]

/-- A walk that succeeds reads the bits of one tree, by induction on its depth bound. -/
theorem readsTree_of_walk {bits : Bits} {sym : List Byte} {fuel c k c' k' : Nat} {path : Bits} {ct ct' : CodeTable}
    (h : walk bits sym fuel c path k ct = .ok ct' c' k') : ReadsTree bits sym c k ct ct' c' k' := by
  induction fuel generalizing c k path ct ct' c' k' with
  | zero => cases h
  | succ fuel ih =>
    rw [walk] at h
    split at h
    next => cases h
    next hb =>
      split at h
      next => cases h
      next x hx =>
        cases h
        exact readsTree_leaf ct path hb hx
    next hb =>
      split at h
      next => cases h
      next hleft => exact .node hb (ih hleft) (ih h)

/-- Settles O24: a walk reads the bits of one tree, which give the counts, and the first of the symbols left. -/
theorem walkIsSelfDelimiting : Obligations.WalkIsSelfDelimiting := by
  intro bits sym fuel c k c' k' path ct ct' h
  obtain ⟨w, xs, ⟨hcount, hproper⟩, hw, rfl, hxs, hlen, rfl, hct⟩ := readsTree_of_walk h
  have hconsumed : (bits.drop c).take (c + w.length - c) = w := by
    rw [Nat.add_sub_cancel_left, ← List.prefix_iff_eq_take.mp hw]
  have hsymbols : (sym.take (k + xs.length)).drop k = xs := by
    rw [List.drop_take, Nat.add_sub_cancel_left, ← List.prefix_iff_eq_take.mp hxs]
  have hpos : 0 < w.length := (by omega : 0 < w.count true).trans_le List.count_le_length
  have hin : w.length ≤ bits.length - c := hw.length_le.trans List.length_drop.le
  rw [hconsumed, hsymbols]
  refine ⟨by omega, by omega, hcount, by rw [hlen], fun n hn => ?_, hct⟩
  have hprefix : (bits.drop c).take n = w.take n := by
    rw [← hconsumed, List.take_take, Nat.min_eq_left hn.le]
  rw [hprefix]
  exact hproper n (by omega)

end Sys2Proof.Machine

/-!
`DecodeStream` (44 R181 to R194): the run from PAD on; bits appended to a message that the terminator ended, by induction on
the message; and TERMSTOP with no terminator designated.
-/
namespace Sys2Proof.Machine

/-- Settles O31: the run of the PAD and DECODE phases. -/
theorem messagePhaseIsDecodeStream : Obligations.MessagePhaseIsDecodeStream := by
  intro s hhost hp hwf hteo hout herr hterm
  exact endsWithin_decodeStream ⟨hhost, hwf, herr, hterm⟩ hp hteo hout

/-! ### Bits after the terminator -/

theorem decodeLoop_append {ct : CodeTable} {cfg : Word} {newline : Byte} {cand bits : Bits} {out out' : List Byte}
    (more : Bits) (h : decodeLoop ct cfg newline cand bits out = .ok out' true) :
    decodeLoop ct cfg newline cand (bits ++ more) out = .ok out' true := by
  induction bits generalizing cand out with
  | nil =>
    rw [decodeLoop] at h
    split at h <;> cases h
  | cons b bits ih =>
    rw [List.cons_append]
    cases hk : codeLookup ct (cand ++ [b]) with
    | none =>
      rw [decodeLoop_of_no_key hk] at h ⊢
      exact ih h
    | some x =>
      by_cases hterm : cfgMode cfg = true ∧ cfgTermEn cfg = true ∧ x = cfgTerm cfg
      · rwa [decodeLoop_of_term hk hterm] at h ⊢
      · by_cases hrem : cfgMode cfg = true ∧ cfgRemEn cfg = true ∧ x = cfgRem cfg
        · rw [decodeLoop_of_rem hk hterm hrem] at h ⊢
          exact ih h
        · rw [decodeLoop_of_neither hk hterm hrem] at h ⊢
          exact ih h

theorem decodeStream_append {ct : CodeTable} {cfg : Word} {newline : Byte} {bits : Bits} {out : List Byte}
    (more : Bits) (h : decodeStream bits ct cfg newline = .ok out true) :
    decodeStream (bits ++ more) ct cfg newline = .ok out true := by
  unfold decodeStream at h ⊢
  split at h
  next => cases h
  next => exact decodeLoop_append more h

/-! ### TERMSTOP with no terminator designated (44 R194) -/

/-- A property of steps that does not look at the host's moves, for what the outcomes of `SeqStep` do not tell. -/
theorem step_induction_sequencerStep {P : State → State → Prop} (command : ∀ s t, CommandStep s t → P s t)
    (sequencer : ∀ s t, sequencerStep s = .next t → P s t) (host : ∀ s t rest, P { s with host := rest } t → P s t)
    {s t : State} (h : step s = .next t) : P s t := by
  cases hhost : s.host with
  | nil => exact sequencer s t (step_no_host hhost ▸ h)
  | cons move rest =>
    cases move with
    | issue c => exact host s t rest (command _ _ (command_cases (step_of_issue hhost ▸ h)))
    | wait => exact host s t rest (sequencer _ _ (step_of_wait hhost ▸ h))

/-- CFG designates no terminator (10 R41). -/
def NoTerminator (cfg : Word) : Prop := cfg.getLsbD 16 = false ∨ cfg.getLsbD 17 = false

theorem classifyCode_of_noTerminator {cfg : Word} (h : NoTerminator cfg) (x : Byte) (k : Bits) :
    classifyCode cfg x k = .codeEmit k ∨ classifyCode cfg x k = .codeDrop k := by
  have hterm : ¬ (cfgMode cfg = true ∧ cfgTermEn cfg = true ∧ x = cfgTerm cfg) := by
    rintro ⟨hmode, hen, -⟩
    rcases h with h | h
    · exact Bool.false_ne_true (h.symm.trans hmode)
    · exact Bool.false_ne_true (h.symm.trans hen)
  by_cases hrem : cfgMode cfg = true ∧ cfgRemEn cfg = true ∧ x = cfgRem cfg
  · have ⟨hmode, hen⟩ := hrem
    exact .inr (classifyCode_of_rem hmode (fun hen => hterm ⟨hmode, hen⟩) hen k)
  · exact .inl (classifyCode_of_not_term_of_not_rem hterm hrem k)

theorem termStop_of_decode {s t : State} (hp : s.phase = .decode) (hcfg : NoTerminator s.cfg)
    (h : sequencerStep s = .next t) : t.termStop = s.termStop := by
  rw [sequencerStep, fetch_decode hp] at h
  split at h
  next =>
    rcases execEos_cases h with ⟨-, rfl⟩ | ⟨-, rfl⟩ <;> rfl
  next =>
    split at h
    next b hb =>
      split at h
      next x hk =>
        rw [runFetched] at h
        rcases classifyCode_of_noTerminator hcfg x (s.cand ++ [b]) with hcode | hcode <;> rw [hcode] at h
        · rw [exec_codeEmit_of_lookup hk] at h; cases h; rfl
        · rw [exec_codeDrop_of_lookup hk] at h; cases h; rfl
      next => cases h; rfl
    next => cases h; rfl

theorem sequencerStep_termStop {s t : State} (hcfg : NoTerminator s.cfg) (h : sequencerStep s = .next t) :
    t.termStop = s.termStop := by
  by_cases hp : s.phase = .decode
  · exact termStop_of_decode hp hcfg h
  · cases sequencerStep_cases h with
    | term b x hdecode => exact absurd hdecode hp
    | wait | header | symbol | exit | node | leafRight | leafLast | pad | eos | shift | emit | drop | fails => rfl

theorem CommandStep.termStop {s t : State} (h : CommandStep s t) (hterm : s.termStop = false) : t.termStop = false := by
  cases h with
  | reset | start => rfl
  | ignored | load | config | result => exact hterm

/-- Settles O32: the loop of `DecodeStream` ends at the terminator before it meets the bits appended; and of the outcomes of
a step only CODE.TERM sets TERMSTOP, which CFG selects for a designated terminator alone. -/
theorem bitsAfterTheTerminatorAreIgnored : Obligations.BitsAfterTheTerminatorAreIgnored := by
  refine ⟨fun bits more ct cfg newline out h => decodeStream_append more h, fun s t h hcfg hterm => ?step⟩
  case step =>
    exact step_induction_sequencerStep (P := fun s t => NoTerminator s.cfg → s.termStop = false → t.termStop = false)
      (fun _ _ hc _ => hc.termStop) (fun _ _ hs hcfg hterm => (sequencerStep_termStop hcfg hs).trans hterm)
      (fun _ _ _ ih => ih) h hcfg hterm

end Sys2Proof.Machine

/-!
The frames of the instructions (20 R66, R68; 40 R122 to R125; 45 R221): a CODE whose string is no key, what the elements leave
as it was, and what the reads may write.
-/
namespace Sys2Proof.Machine

/-! ### CODE by its lookup -/

theorem codeSymbol_of_notMem {s : State} {k : Bits} (hk : k ∉ codeKeys s.ct) : codeSymbol s k = none :=
  (codeLookup_eq_none s.ct k).mpr hk

theorem exec_codeEmit_of_notMem {s : State} {k : Bits} (hk : k ∉ codeKeys s.ct) :
    exec (.codeEmit k) s = .next (shiftPending k s) := by
  simp [exec, execCodeEmit, codeSymbol_of_notMem hk]

theorem exec_codeTerm_of_notMem {s : State} {k : Bits} (hk : k ∉ codeKeys s.ct) :
    exec (.codeTerm k) s = .next (shiftPending k s) := by
  simp [exec, execCodeTerm, codeSymbol_of_notMem hk]

theorem exec_codeDrop_of_notMem {s : State} {k : Bits} (hk : k ∉ codeKeys s.ct) :
    exec (.codeDrop k) s = .next (shiftPending k s) := by
  simp [exec, execCodeDrop, codeSymbol_of_notMem hk]

/-- Settles O26: the three rules of a matched CODE. -/
theorem codeOutcomes : Obligations.CodeOutcomes := by
  intro s k x hk
  exact ⟨exec_codeEmit_of_lookup hk, exec_codeTerm_of_lookup hk, exec_codeDrop_of_lookup hk⟩

/-- Settles O27: the three rules of a CODE whose string is no key. -/
theorem codeOfNoKeyOnlyShifts : Obligations.CodeOfNoKeyOnlyShifts := by
  intro s k hk
  exact ⟨exec_codeEmit_of_notMem hk, exec_codeTerm_of_notMem hk, exec_codeDrop_of_notMem hk⟩

/-- What a CODE can do, whichever it is: the shift step that matched and its outcome, or the one that keeps the string. -/
theorem exec_code_cases {i : Instr} {k : Bits} {s t : State} (hi : i = .codeEmit k ∨ i = .codeTerm k ∨ i = .codeDrop k)
    (h : exec i s = .next t) :
    (∃ out termStop phase, t = { shiftMatched s with out := out, termStop := termStop, phase := phase }) ∨
      t = shiftPending k s := by
  by_cases hk : k ∈ codeKeys s.ct
  · obtain ⟨x, hx⟩ := codeLookup_of_mem_codeKeys hk
    refine .inl ?_
    rcases hi with rfl | rfl | rfl
    · rw [exec_codeEmit_of_lookup hx] at h; cases h; exact ⟨_, _, _, rfl⟩
    · rw [exec_codeTerm_of_lookup hx] at h; cases h; exact ⟨_, _, _, rfl⟩
    · rw [exec_codeDrop_of_lookup hx] at h; cases h; exact ⟨_, _, _, rfl⟩
  · refine .inr ?_
    rcases hi with rfl | rfl | rfl
    · rw [exec_codeEmit_of_notMem hk] at h; cases h; rfl
    · rw [exec_codeTerm_of_notMem hk] at h; cases h; rfl
    · rw [exec_codeDrop_of_notMem hk] at h; cases h; rfl

/-! ### The elements -/

/-- Input, CFG, parameters and the host's side are as before. -/
def SameSurroundings (s t : State) : Prop :=
  t.bytes = s.bytes ∧ t.cfg = s.cfg ∧ t.params = s.params ∧ t.host = s.host ∧ t.reply = s.reply

/-- Any update of the other fields. -/
theorem sameSurroundings_of_eq {s t : State}
    (h : t = { t with bytes := s.bytes, cfg := s.cfg, params := s.params, host := s.host, reply := s.reply }) :
    SameSurroundings s t := by
  rw [h]
  exact ⟨rfl, rfl, rfl, rfl, rfl⟩

theorem exec_element_sameSurroundings {i : Instr} {s t : State} (hi : i.isElement = true) (h : exec i s = .next t) :
    SameSurroundings s t := by
  refine sameSurroundings_of_eq ?_
  cases i with
  | size n => rcases execSize_cases h with ⟨pos, rfl⟩ | ⟨rfl, -⟩ <;> rfl
  | sym g => rw [exec_sym] at h; cases h; rfl
  | node => rw [exec_node] at h; cases h; rfl
  | leaf =>
    rcases execLeaf_cases h with ⟨pos, rfl⟩ | ⟨x, pos, -, -, -, rfl⟩ | ⟨x, q, rest, -, -, rfl⟩ | ⟨x, -, -, -, -, rfl⟩ <;> rfl
  | pad => rcases execPad_cases h with ⟨rfl, -⟩ | ⟨-, rfl⟩ <;> rfl
  | codeEmit k => rcases exec_code_cases (.inl rfl) h with ⟨_, _, _, rfl⟩ | rfl <;> rfl
  | codeTerm k => rcases exec_code_cases (.inr (.inl rfl)) h with ⟨_, _, _, rfl⟩ | rfl <;> rfl
  | codeDrop k => rcases exec_code_cases (.inr (.inr rfl)) h with ⟨_, _, _, rfl⟩ | rfl <;> rfl
  | eos => rcases execEos_cases h with ⟨-, rfl⟩ | ⟨-, rfl⟩ <;> rfl
  | load | bit | slice | uint | reset | config | start | result => cases hi

/-- Settles O40: the frame of the elements, and with the input every read of it. -/
theorem elementsLeaveTheInput : Obligations.ElementsLeaveTheInput := by
  intro i s t hi h
  have hsame := exec_element_sameSurroundings hi h
  have ⟨hbytes, _⟩ := hsame
  exact ⟨fun a => by rw [hbytes], hsame⟩

/-! ### The reads -/

/-- What BIT can do (40 R122). -/
theorem exec_bit_cases {i : Nat} {s t : State} (h : exec (.bit i) s = .next t) :
    (∃ b, t = setReply (.bit b) s) ∨ t = raise .outOfRange i s := by
  unfold exec execBit at h
  injection h with h
  split at h
  next b hb => exact .inl ⟨b, h.symm⟩
  next => exact .inr h.symm

/-- What SLICE can do (40 R123). -/
theorem exec_slice_cases {lo hi : Nat} {s t : State} (h : exec (.slice lo hi) s = .next t) :
    (∃ w, t = setReply (.slice w) s) ∨ t = raise .outOfRange hi s := by
  unfold exec execSlice at h
  injection h with h
  split at h
  next w hw => exact .inl ⟨w, h.symm⟩
  next => exact .inr h.symm

/-- Settles O41: each read hands its answer over, or BIT and SLICE raise. -/
theorem readsChangeNoState : Obligations.ReadsChangeNoState := by
  intro i s t hi h
  cases i with
  | bit j =>
    rcases exec_bit_cases h with ⟨b, rfl⟩ | rfl
    · exact ⟨fun _ => rfl, .inl rfl⟩
    · exact ⟨fun _ => rfl, .inr ⟨Instr.noConfusion, fun _ => Instr.noConfusion, rfl⟩⟩
  | slice lo hi =>
    rcases exec_slice_cases h with ⟨w, rfl⟩ | rfl
    · exact ⟨fun _ => rfl, .inl rfl⟩
    · exact ⟨fun _ => rfl, .inr ⟨Instr.noConfusion, fun _ => Instr.noConfusion, rfl⟩⟩
  | uint w => rw [exec_uint] at h; cases h; exact ⟨fun _ => rfl, .inl rfl⟩
  | result => rw [exec_result] at h; cases h; exact ⟨fun _ => rfl, .inl rfl⟩
  | size | sym | node | leaf | pad | codeEmit | codeTerm | codeDrop | eos | load | reset | config | start => cases hi

end Sys2Proof.Machine

/-!
What a step reads (45 R210 to R212; 44 R187; 20 R67): the fetch as the decoder's answer, then noninterference. An update of
the input, CFG and the host's moves that leaves `L` and the fetch as they are commutes with the sequencer's step.
-/
namespace Sys2Proof.Machine

/-! ### The step as the decoded instruction -/

theorem fetchWith_of_instr {s : State} {i : Instr} {w rest : Bits} (h : decode s.decodeContext w = .instr i rest) :
    fetchWith s w = .element i := by
  rw [fetchWith, h]

/-- Settles O33: in each phase the fetch hands the decoder the bits named, and the step executes what it answers. -/
theorem stepRunsTheDecodedInstruction : Obligations.StepRunsTheDecodedInstruction := by
  intro s i w rest hhost hdecode
  have hwith := fetchWith_of_instr hdecode
  have run : fetch s = .element i → step s = exec i s := fun hf => by
    rw [step_no_host hhost, sequencerStep_of_element hf]
  refine ⟨fun hp hlen hw => run ?_, fun hp hc hw => run ?_, fun hp b hb hw => run ?_, fun hp hw => run ?_,
    fun hp hc hw => run ?_, fun hp hc b hb hw => run ?_⟩
  all_goals simp only [fetch, hp]
  · rw [if_neg hlen.not_gt, hw, fetchBits, hwith]
  · rw [if_pos hc, hw, fetchBits, hwith]
  · rw [hb, Option.map_some, ← hw, fetchBits, hwith]
  · rw [← hw, hwith]
  · rw [if_pos hc, ← hw, hwith]
  · rw [if_neg hc, hb, Option.map_some, ← hw, fetchBits, hwith]

theorem step_of_not_running {s : State} (hhost : s.host = []) (h : s.running = false) : step s = .next s := by
  rw [step_no_host hhost, sequencerStep, fetch_not_running h, runFetched]

/-- Settles O35: the three phases are those in which no operation runs. -/
theorem nothingHappensWhenIdle : Obligations.NothingHappensWhenIdle := by
  intro s hhost hp
  refine step_of_not_running hhost ?_
  rcases hp with hp | hp | hp <;> rw [State.running, hp] <;> rfl

/-- Every arm of `exec` answers a next state. -/
theorem exec_next (i : Instr) (s : State) : ∃ t, exec i s = .next t := by
  cases i <;> exact ⟨_, rfl⟩

theorem sequencerStep_next (s : State) : ∃ t, sequencerStep s = .next t := by
  rw [sequencerStep]
  cases fetch s with
  | element i => exact exec_next i s
  | alphabetExit | shift | outOfRange | idle => exact ⟨_, rfl⟩

/-- Settles O36: every arm of `exec` answers a next state, and a step is an arm or an outcome of the sequencer. -/
theorem everyInstructionAndStepAnswersNext : Obligations.EveryInstructionAndStepAnswersNext := by
  refine ⟨exec_next, fun s => ?_⟩
  cases hhost : s.host with
  | nil => rw [step_no_host hhost]; exact sequencerStep_next s
  | cons move rest =>
    cases move with
    | issue c => rw [step_of_issue hhost]; exact exec_next _ _
    | wait => rw [step_of_wait hhost]; exact sequencerStep_next _

/-! ### What is fetched -/

theorem classifyCode_isElement (cfg : Word) (x : Byte) (k : Bits) : (classifyCode cfg x k).isElement = true := by
  rcases classifyCode_isCode cfg x k with hcode | hcode | hcode <;> rw [hcode] <;> rfl

/-- The sequencer fetches elements alone (45 R212). -/
theorem isElement_of_fetch {s : State} {i : Instr} (h : fetch s = .element i) : i.isElement = true := by
  cases hp : s.phase with
  | header =>
    rw [fetch_header hp] at h
    split at h
    next => cases h
    next => split at h <;> cases h; rfl
  | alphabet =>
    rw [fetch_alphabet hp] at h
    split at h
    next => split at h <;> cases h; rfl
    next => cases h
  | tree => rw [fetch_tree hp] at h; split at h <;> cases h <;> rfl
  | pad => rw [fetch_pad hp] at h; cases h; rfl
  | decode =>
    rw [fetch_decode hp] at h
    split at h
    next => cases h; rfl
    next =>
      split at h
      next =>
        split at h <;> cases h
        exact classifyCode_isElement _ _ _
      next => cases h
  | idle | done | error => rw [fetch_not_running (by rw [State.running, hp]; rfl)] at h; cases h

/-! ### Noninterference -/

/-- An update of the input, CFG and the host's moves. -/
def State.mapSurroundings (β : Memory → Memory) (γ : Word → Word) (η : List HostMove → List HostMove) (s : State) :
    State :=
  { s with bytes := β s.bytes, cfg := γ s.cfg, host := η s.host }

section
variable {β : Memory → Memory} {γ : Word → Word} {η : List HostMove → List HostMove} {s : State}

theorem params_mapSurroundings : (s.mapSurroundings β γ η).params = s.params := rfl

theorem stk_mapSurroundings : (s.mapSurroundings β γ η).stk = s.stk := rfl

theorem cand_mapSurroundings : (s.mapSurroundings β γ η).cand = s.cand := rfl

theorem leafSymbol_mapSurroundings : leafSymbol (s.mapSurroundings β γ η) = leafSymbol s := rfl

theorem codeSymbol_mapSurroundings (k : Bits) : codeSymbol (s.mapSurroundings β γ η) k = codeSymbol s k := rfl

theorem completeTree_mapSurroundings (x : Byte) :
    completeTree (s.mapSurroundings β γ η) (leafRecord x (s.mapSurroundings β γ η)) =
      (completeTree s (leafRecord x s)).mapSurroundings β γ η := by
  by_cases hcount : s.leaf + 1 = s.asize.toNat
  · by_cases hfree : prefixFree (codeInsert s.ct s.path x) = true
    · rw [completeTree_of_prefixFree (r := leafRecord x s) hcount hfree, completeTree_of_prefixFree hcount hfree]
      rfl
    · rw [completeTree_of_not_prefixFree (r := leafRecord x s) hcount hfree,
        completeTree_of_not_prefixFree hcount hfree]
      rfl
  · rw [completeTree_of_count_bad (r := leafRecord x s) hcount, completeTree_of_count_bad hcount]
    rfl

variable (hlen : (β s.bytes).length = s.bytes.length)
include hlen

theorem bitLen_mapSurroundings : (s.mapSurroundings β γ η).bitLen = s.bitLen := congrArg (8 * ·) hlen

theorem sizeAccept_mapSurroundings (n : Byte) :
    sizeAccept n (s.mapSurroundings β γ η) = (sizeAccept n s).mapSurroundings β γ η := by
  rw [sizeAccept, bitLen_mapSurroundings hlen]
  rfl

theorem padLength_mapSurroundings : padLength (s.mapSurroundings β γ η) = padLength s :=
  congrArg (fun len => (len - s.teo) % 8) (bitLen_mapSurroundings hlen)

/-- An element reads nothing of the input but `L`, and neither CFG nor the host's moves. -/
theorem exec_element_mapSurroundings {i : Instr} (hi : i.isElement = true) :
    exec i (s.mapSurroundings β γ η) = mapNext (State.mapSurroundings β γ η) (exec i s) := by
  cases i with
  | sym | node => rfl
  | size n =>
    simp only [exec, execSize, bitLen_mapSurroundings hlen, params_mapSurroundings, sizeAccept_mapSurroundings hlen]
    split_ifs <;> rfl
  | leaf =>
    simp only [exec, execLeaf, leafSymbol_mapSurroundings, stk_mapSurroundings, completeTree_mapSurroundings]
    cases leafSymbol s <;> cases s.stk <;> rfl
  | pad =>
    simp only [exec, execPad, codeSymbol_mapSurroundings, padLength_mapSurroundings hlen]
    cases codeSymbol s [] <;> rfl
  | codeEmit k =>
    simp only [exec, execCodeEmit, codeSymbol_mapSurroundings]
    cases codeSymbol s k <;> rfl
  | codeTerm k =>
    simp only [exec, execCodeTerm, codeSymbol_mapSurroundings]
    cases codeSymbol s k <;> rfl
  | codeDrop k =>
    simp only [exec, execCodeDrop, codeSymbol_mapSurroundings]
    cases codeSymbol s k <;> rfl
  | eos =>
    simp only [exec, execEos, bitLen_mapSurroundings hlen, cand_mapSurroundings]
    split_ifs <;> rfl
  | load | bit | slice | uint | reset | config | start | result => cases hi

/-- Where the fetch is the same, so is the step. -/
theorem sequencerStep_mapSurroundings (hfetch : fetch (s.mapSurroundings β γ η) = fetch s) :
    sequencerStep (s.mapSurroundings β γ η) = mapNext (State.mapSurroundings β γ η) (sequencerStep s) := by
  rw [sequencerStep, hfetch, sequencerStep]
  cases hf : fetch s with
  | element i => exact exec_element_mapSurroundings hlen (isElement_of_fetch hf)
  | alphabetExit | shift | outOfRange | idle => rfl

end

/-! ### The statements -/

/-- Settles O34: a command is its instruction; under a `wait` the sequencer's step commutes with setting the moves left, which
the fetch does not look at. -/
theorem stepTakesTheHostMoveFirst : Obligations.StepTakesTheHostMoveFirst := by
  refine ⟨fun s c rest hhost => step_of_issue hhost, fun s rest hhost => ?wait⟩
  case wait =>
    have hstep := sequencerStep_mapSurroundings (β := id) (γ := id) (η := fun _ => rest) (s := { s with host := [] }) rfl rfl
    rw [step_of_wait hhost, step_no_host (s := { s with host := [] }) rfl]
    exact hstep

/-- In unfiltered mode the fetch does not look at the rest of CFG (44 R187). -/
theorem fetch_of_unfiltered {s : State} {c : Word} (hs : s.cfg.getLsbD 16 = false) (hc : c.getLsbD 16 = false) :
    fetch (s.mapSurroundings id (fun _ => c) id) = fetch s := by
  have hphase : (s.mapSurroundings id (fun _ => c) id).phase = s.phase := rfl
  cases hp : s.phase with
  | header => exact (fetch_header (hphase.trans hp)).trans (fetch_header hp).symm
  | alphabet => exact (fetch_alphabet (hphase.trans hp)).trans (fetch_alphabet hp).symm
  | tree => exact (fetch_tree (hphase.trans hp)).trans (fetch_tree hp).symm
  | pad => exact (fetch_pad (hphase.trans hp)).trans (fetch_pad hp).symm
  | decode =>
    have hmode : cfgMode (s.mapSurroundings id (fun _ => c) id).cfg = false := hc
    rw [fetch_decode (hphase.trans hp), fetch_decode hp]
    simp only [classifyCode_of_unfiltered hmode, classifyCode_of_unfiltered hs]
    rfl
  | idle | done | error =>
    have hstopped : s.running = false := by rw [State.running, hp]; rfl
    have hstopped' : (s.mapSurroundings id (fun _ => c) id).running = false := hstopped
    rw [fetch_not_running hstopped, fetch_not_running hstopped']

/-- Settles O44: the fetch is the same, and no element reads CFG. -/
theorem unfilteredModeIgnoresTheOtherFields : Obligations.UnfilteredModeIgnoresTheOtherFields := by
  intro s c hhost hs hc
  rw [step_no_host hhost, step_no_host (s := { s with cfg := c }) hhost]
  exact sequencerStep_mapSurroundings (β := id) (γ := fun _ => c) (η := id) rfl (fetch_of_unfiltered hs hc)

/-- After the alphabet the fetch reads the bit at the cursor, in PAD none (30 R95, R102). -/
theorem fetch_of_memBit_eq {s : State} {m : Memory} (hp : s.phase = .tree ∨ s.phase = .pad ∨ s.phase = .decode)
    (hlen : m.length = s.bytes.length) (hbit : s.phase ≠ .pad → memBit m s.cur = memBit s.bytes s.cur) :
    fetch { s with bytes := m } = fetch s := by
  rcases hp with hp | hp | hp
  · rw [fetch_tree hp, fetch_tree (s := { s with bytes := m }) hp, ← hbit (by simp [hp])]
  · rw [fetch_pad hp, fetch_pad (s := { s with bytes := m }) hp]
  · have hbitLen : ({ s with bytes := m } : State).bitLen = s.bitLen := congrArg (8 * ·) hlen
    rw [fetch_decode hp, fetch_decode (s := { s with bytes := m }) hp, ← hbit (by simp [hp]), hbitLen]

/-- Settles O45: the fetch is the same, and no element reads more of the input than `L`. -/
theorem stepReadsOnlyTheBitAtTheCursor : Obligations.StepReadsOnlyTheBitAtTheCursor := by
  intro s m hhost hp hlen hbit
  rw [step_no_host hhost, step_no_host (s := { s with bytes := m }) hhost]
  exact sequencerStep_mapSurroundings (β := fun _ => m) (γ := id) (η := id) hlen (fetch_of_memBit_eq hp hlen hbit)

end Sys2Proof.Machine

/-!
What every step keeps and how it may change the state (10 R21 to R24; 20 R78; 45 R211; 60 R231 to R239): each shown for the
commands and for the outcomes of the sequencer, then read off for the step.
-/
namespace Sys2Proof.Machine

theorem phase_ne_of_running {s : State} {p : Phase} (h : s.running = true) (hp : phaseRunning p = false) :
    s.phase ≠ p := by
  rintro rfl
  exact Bool.false_ne_true (hp.symm.trans h)

/-! ### The parameters -/

theorem CommandStep.params {s t : State} (h : CommandStep s t) : t.params = s.params := by
  cases h <;> rfl

theorem SeqStep.params {s t : State} (h : SeqStep s t) : t.params = s.params := by
  cases h <;> rfl

/-- Settles O2: the rule of RESET, and no outcome of a step writes the parameters. -/
theorem resetKeepsTheHostSide : Obligations.ResetKeepsTheHostSide := by
  refine ⟨exec_reset, fun s t h => ?params⟩
  case params =>
    exact step_induction (P := fun s t => t.params = s.params) (fun _ _ => CommandStep.params)
      (fun _ _ => SeqStep.params) (fun _ _ _ ih => ih) h

/-! ### The form of the input and of CFG (10 R21, R41) -/

theorem FormInv.of_eq {s t : State} (hs : FormInv s) (hbytes : t.bytes = s.bytes) (hcfg : t.cfg = s.cfg) : FormInv t :=
  ⟨hbytes ▸ hs.mem, hcfg ▸ hs.cfg⟩

theorem CommandStep.keeps_form {s t : State} (h : CommandStep s t) (hs : FormInv s) : FormInv t := by
  cases h with
  | reset => exact ⟨rfl, fun i _ => BitVec.getLsbD_zero⟩
  | load bs => exact ⟨memOfBytes_wf bs, hs.cfg⟩
  | config v =>
    refine ⟨hs.mem, fun i hi => ?_⟩
    rw [BitVec.getLsbD_and, cfgMask_getLsbD, decide_eq_false hi.not_gt, Bool.and_false]
  | ignored | start | result => exact hs.of_eq rfl rfl

/-- Settles O46: the commands that write the input or CFG write the canonical form; the sequencer writes neither. -/
theorem stepKeepsTheForm : Obligations.StepKeepsTheForm := by
  intro s t hs h
  refine step_induction (P := fun s t => FormInv s → FormInv t) (fun _ _ => CommandStep.keeps_form)
    (fun s t hstep hs => ?_) (fun s t rest ih hs => ih (hs.of_eq rfl rfl)) h hs
  obtain ⟨hbytes, hcfg⟩ := hstep.bytes_and_cfg
  exact hs.of_eq hbytes hcfg

/-! ### The record (10 R23, R32; 20 R78) -/

/-- Nothing raised, nothing emitted, no terminator met. -/
def NothingRecorded (s : State) : Prop := s.err = .none ∧ s.out = [] ∧ s.termStop = false

/-- Before DECODE of a running operation nothing is recorded. -/
theorem RecordInv.nothingRecorded {s : State} (hs : RecordInv s) {p : Phase} (hp : s.phase = p)
    (hbefore : p ≠ .decode ∧ p ≠ .done ∧ p ≠ .error) : NothingRecorded s := by
  subst hp
  obtain ⟨hdecode, hdone, herror⟩ := hbefore
  refine ⟨not_not.mp (mt hs.errIff.mp herror), by_contra fun hout => ?_, Bool.eq_false_iff.mpr (mt hs.termStop hdone)⟩
  exact (hs.outPhase hout).elim hdecode hdone

theorem RecordInv.of_nothingRecorded {s : State} (h : NothingRecorded s) (hp : s.phase ≠ .error) : RecordInv s := by
  obtain ⟨herr, hout, hterm⟩ := h
  exact ⟨by simp [herr, hp], fun _ => hout, fun hne => absurd hout hne, fun hstop => by simp [hterm] at hstop⟩

/-- In DECODE nothing is raised and no terminator met. -/
theorem RecordInv.of_message {s : State} (hs : RecordInv s) (hp : s.phase = .decode) :
    s.err = .none ∧ s.termStop = false := by
  have herror : s.phase ≠ .error := by simp [hp]
  have hdone : s.phase ≠ .done := by simp [hp]
  exact ⟨not_not.mp (mt hs.errIff.mp herror), Bool.eq_false_iff.mpr (mt hs.termStop hdone)⟩

theorem RecordInv.of_decode {s : State} (hp : s.phase = .decode) (h : s.err = .none ∧ s.termStop = false) :
    RecordInv s := by
  obtain ⟨herr, hterm⟩ := h
  exact ⟨by simp [herr, hp], by simp [hp], fun _ => .inl hp, by simp [hterm]⟩

theorem RecordInv.of_done {s : State} (hp : s.phase = .done) (herr : s.err = .none) : RecordInv s :=
  ⟨by simp [herr, hp], by simp [hp], fun _ => .inr hp, fun _ => hp⟩

theorem RecordInv.of_error {s : State} (hp : s.phase = .error) (herr : s.err ≠ .none) (hout : s.out = [])
    (hterm : s.termStop = false) : RecordInv s :=
  ⟨⟨fun _ => hp, fun _ => herr⟩, fun _ => hout, fun hne => absurd hout hne, fun hstop => by simp [hterm] at hstop⟩

theorem SeqStep.keeps_record {s t : State} (h : SeqStep s t) (hs : RecordInv s) : RecordInv t := by
  cases h with
  | wait => exact hs
  | header n hp | exit hp | leafLast x hp | pad hp =>
    exact .of_nothingRecorded (hs.nothingRecorded hp (by decide)) Phase.noConfusion
  | symbol g hp | node hp | leafRight x q rest hp =>
    exact .of_nothingRecorded (hs.nothingRecorded hp (by decide)) (by simp [hp])
  | shift b hp | emit b x hp | drop b x hp => exact .of_decode hp (hs.of_message hp)
  | eos hp | term b x hp => exact .of_done rfl (hs.of_message hp).1
  | fails ph k pos hraises =>
    have hdone : s.phase ≠ .done := phase_ne_of_running hraises.running rfl
    exact .of_error rfl hraises.kind rfl (Bool.eq_false_iff.mpr (mt hs.termStop hdone))

theorem CommandStep.keeps_record {s t : State} (h : CommandStep s t) (hs : RecordInv s) : RecordInv t := by
  cases h with
  | reset | start => exact .of_nothingRecorded ⟨rfl, rfl, rfl⟩ Phase.noConfusion
  | ignored => exact hs
  | load | config | result => exact ⟨hs.errIff, hs.errOut, hs.outPhase, hs.termStop⟩

/-- Settles O47: by phase; before DECODE nothing is recorded, and the ends of an operation record what their phase asks. -/
theorem stepKeepsTheRecord : Obligations.StepKeepsTheRecord := by
  intro s t hs h
  refine step_induction (P := fun s t => RecordInv s → RecordInv t) (fun _ _ => CommandStep.keeps_record)
    (fun _ _ => SeqStep.keeps_record) (fun s t rest ih hs => ih ?_) h hs
  exact ⟨hs.errIff, hs.errOut, hs.outPhase, hs.termStop⟩

/-! ### The phases (45 R211) -/

theorem phaseArrow_error (p : Phase) : phaseArrow p .error = phaseRunning p := by
  cases p <;> rfl

theorem phaseArrow_idle (p : Phase) : phaseArrow p .idle = true := by
  cases p <;> rfl

theorem phaseArrow_header {p : Phase} (h : phaseRunning p = false) : phaseArrow p .header = true := by
  cases p with
  | idle | done | error => rfl
  | header | alphabet | tree | pad | decode => cases h

theorem SeqStep.phaseArrow {s t : State} (h : SeqStep s t) (hne : t.phase ≠ s.phase) :
    phaseArrow s.phase t.phase = true := by
  cases h with
  | header n hp | exit hp | leafLast x hp | pad hp | eos hp | term b x hp => rw [hp]; rfl
  | fails ph k pos hraises => exact (phaseArrow_error s.phase).trans hraises.running
  | wait | symbol | node | leafRight | shift | emit | drop => exact absurd rfl hne

theorem CommandStep.phaseArrow {s t : State} (h : CommandStep s t) (hne : t.phase ≠ s.phase) :
    phaseArrow s.phase t.phase = true := by
  cases h with
  | reset => exact phaseArrow_idle s.phase
  | start hstopped => exact phaseArrow_header hstopped
  | ignored | load | config | result => exact absurd rfl hne

/-- Settles O37: each outcome that changes the phase is a row of the table. -/
theorem phaseChangesTakeTheArrows : Obligations.PhaseChangesTakeTheArrows := by
  intro s t h hne
  exact step_induction (P := fun s t => t.phase ≠ s.phase → phaseArrow s.phase t.phase = true)
    (fun _ _ => CommandStep.phaseArrow) (fun _ _ => SeqStep.phaseArrow) (fun _ _ _ ih => ih) h hne

/-! ### Error entry (60 R231 to R239) -/

/-- An outcome of the sequencer that comes to ERROR is a raise. -/
theorem SeqStep.raises {s t : State} (h : SeqStep s t) (hrunning : s.running = true) (herror : t.phase = .error) :
    ∃ ph k pos, Raises s ph k ∧ t = raiseIn ph k pos s := by
  cases h with
  | fails ph k pos hraises => exact ⟨ph, k, pos, hraises, rfl⟩
  | wait | symbol | node | leafRight | shift | emit | drop => exact absurd herror (phase_ne_of_running hrunning rfl)
  | header | exit | leafLast | pad | eos | term => cases herror

/-- No command raises. -/
theorem CommandStep.phase_ne_error {s t : State} (h : CommandStep s t) (hrunning : s.running = true) :
    t.phase ≠ .error := by
  cases h with
  | reset | start => exact Phase.noConfusion
  | ignored | load | config | result => exact phase_ne_of_running hrunning rfl

/-- A step of a running operation that comes to ERROR is a raise, from the state with the host's move taken. -/
theorem step_raises {s t : State} (h : step s = .next t) (hrunning : s.running = true) (herror : t.phase = .error) :
    ∃ ph k pos rest, Raises { s with host := rest } ph k ∧ t = raiseIn ph k pos { s with host := rest } := by
  rcases step_cases h with ⟨c, rest, -, hcommand⟩ | ⟨rest, -, hstep⟩ | ⟨-, hstep⟩
  · exact absurd herror (hcommand.phase_ne_error hrunning)
  · obtain ⟨ph, k, pos, hraises, rfl⟩ := hstep.raises hrunning herror
    exact ⟨ph, k, pos, rest, hraises, rfl⟩
  · obtain ⟨ph, k, pos, hraises, rfl⟩ := hstep.raises hrunning herror
    exact ⟨ph, k, pos, s.host, hraises, rfl⟩

/-- Settles O39: the step is a raise, which writes the record, OUT and PHASE. -/
theorem errorEntryIsPrecise : Obligations.ErrorEntryIsPrecise := by
  intro s t h hrunning herror
  obtain ⟨ph, k, pos, rest, hraises, rfl⟩ := step_raises h hrunning herror
  exact ⟨hraises.kind, rfl, hraises.recorded, rfl⟩

/-- Below the boundary the layout leaves a whole byte to the ALPHABET phase. -/
theorem LayoutInv.memSlice_ne_none {s : State} (hlayout : LayoutInv s) (hform : FormInv s) (hp : s.phase = .alphabet)
    (hc : s.cur < s.aend) : memSlice s.bytes s.cur (s.cur + 8) ≠ none := by
  obtain ⟨-, -, -, hle, hmod⟩ := hlayout.regions hp rfl
  obtain ⟨-, -, halign⟩ := hlayout.alphabet hp
  obtain ⟨w, hw⟩ := Machine.memSlice_isSome hform.mem (Nat.le_add_right s.cur 8)
    (show s.cur + 8 ≤ s.bitLen by omega)
  simp [hw]

/-- The layout keeps OUT_OF_RANGE to HEADER and TREE. -/
theorem Raises.phase_of_outOfRange {s : State} {ph : Phase} (h : Raises s ph .outOfRange) (hform : FormInv s)
    (hlayout : LayoutInv s) : s.phase = .header ∨ s.phase = .tree := by
  rcases h.range rfl with hp | hp | ⟨hp, hc, hnone⟩ | ⟨hp, hc, hnone⟩
  · exact .inl hp
  · exact .inr hp
  · exact absurd hnone (hlayout.memSlice_ne_none hform hp hc)
  · obtain ⟨b, hb⟩ := memBit_isSome hform.mem (lt_of_le_of_ne (hlayout.cursor h.running) hc)
    simp [hb] at hnone

/-- Settles O54: the step is a raise, and the kinds by phase are what `Raises` tells under the invariants. -/
theorem errorKindsByPhase : Obligations.ErrorKindsByPhase := by
  intro s t hform hlayout htables h hrunning herror
  obtain ⟨ph, k, pos, rest, hraises, rfl⟩ := step_raises h hrunning herror
  cases k with
  | none => exact absurd rfl hraises.kind
  | outOfRange =>
    rcases hraises.phase_of_outOfRange (hform.of_eq rfl rfl) (hlayout.of_host rest) with hp | hp
    · exact .inl ⟨hp, rfl⟩
    · exact .inr (.inl ⟨hp, .inl rfl⟩)
  | leafMismatch => exact .inr (.inl ⟨hraises.leaves rfl, .inr rfl⟩)
  | invalidPrefixCode => exact absurd rfl (hraises.ne_invalidPrefixCode (htables.of_host rest))
  | degenerateTree => exact .inr (.inr (.inl ⟨hraises.single rfl, rfl⟩))
  | truncation => exact .inr (.inr (.inr ⟨hraises.cut rfl, rfl⟩))

/-! ### The tables and the message (20 R78) -/

/-- The table `l` is as it was, or the phase is its own and it has been extended at the end. -/
def GrowsOnlyIn {α : Type} (p : Phase) (s : State) (l l' : List α) : Prop := l' = l ∨ s.phase = p ∧ l <+: l'

theorem GrowsOnlyIn.isPrefix {α : Type} {p : Phase} {s : State} {l l' : List α} (h : GrowsOnlyIn p s l l') : l <+: l' := by
  rcases h with rfl | ⟨-, hprefix⟩
  · exact List.prefix_rfl
  · exact hprefix

theorem GrowsOnlyIn.phase_of_ne {α : Type} {p : Phase} {s : State} {l l' : List α} (h : GrowsOnlyIn p s l l')
    (hne : l' ≠ l) : s.phase = p := by
  rcases h with heq | ⟨hp, -⟩
  · exact absurd heq hne
  · exact hp

/-- SYM grows in ALPHABET, CT in TREE, and OUT in DECODE or in no step that raises. -/
structure TablesGrow (s t : State) : Prop where
  sym : GrowsOnlyIn .alphabet s s.sym t.sym
  ct  : GrowsOnlyIn .tree s s.ct t.ct
  out : t.phase ≠ .error → GrowsOnlyIn .decode s s.out t.out

theorem SeqStep.tablesGrow {s t : State} (h : SeqStep s t) : TablesGrow s t := by
  cases h with
  | symbol g hp => exact ⟨.inr ⟨hp, symInsert_prefix s.sym g⟩, .inl rfl, fun _ => .inl rfl⟩
  | leafRight x q rest hp | leafLast x hp =>
    exact ⟨.inl rfl, .inr ⟨hp, List.prefix_append _ _⟩, fun _ => .inl rfl⟩
  | emit b x hp | term b x hp => exact ⟨.inl rfl, .inl rfl, fun _ => .inr ⟨hp, List.prefix_append _ _⟩⟩
  | fails => exact ⟨.inl rfl, .inl rfl, fun hne => absurd rfl hne⟩
  | wait | header | exit | node | pad | eos | shift | drop => exact ⟨.inl rfl, .inl rfl, fun _ => .inl rfl⟩

/-- While an operation runs no command but RESET writes a table. -/
theorem CommandStep.tablesGrow {s t : State} (h : CommandStep s t) (hrunning : s.running = true)
    (hidle : t.phase ≠ .idle) : TablesGrow s t := by
  cases h with
  | reset => exact absurd rfl hidle
  | start hstopped => simp [hstopped] at hrunning
  | ignored | load | config | result => exact ⟨.inl rfl, .inl rfl, fun _ => .inl rfl⟩

/-- Settles O42: the outcomes that extend a table are in its phase, and only a raise empties OUT. -/
theorem tablesGrowInTheirOwnPhase : Obligations.TablesGrowInTheirOwnPhase := by
  intro s t h hrunning hidle
  obtain ⟨hsym, hct, hout⟩ := step_induction
    (P := fun s t => s.running = true → t.phase ≠ .idle → TablesGrow s t)
    (fun _ _ => CommandStep.tablesGrow) (fun _ _ hstep _ _ => hstep.tablesGrow)
    (fun s t rest ih hrunning hidle => ⟨(ih hrunning hidle).sym, (ih hrunning hidle).ct, (ih hrunning hidle).out⟩)
    h hrunning hidle
  exact ⟨hsym.isPrefix, hct.isPrefix, fun hne => (hout hne).isPrefix, hsym.phase_of_ne, hct.phase_of_ne,
    fun hne => (hout hne).phase_of_ne⟩

/-! ### The cursor (10 R24) -/

/-- The cursor stays or advances, but for the ALPHABET exit. -/
theorem SeqStep.cur_le {s t : State} (h : SeqStep s t) (hs : LayoutInv s) :
    s.cur ≤ t.cur ∨ s.phase = .alphabet ∧ t = alphabetExit s := by
  cases h with
  | exit hp => exact .inr ⟨hp, rfl⟩
  | header n hp => exact .inl ((hs.header hp).trans_le (Nat.zero_le _))
  | pad hp =>
    obtain ⟨hcur, -⟩ := hs.pad hp
    exact .inl (hcur.symm.trans_le (Nat.le_add_right _ _))
  | wait | eos | fails => exact .inl le_rfl
  | symbol | node | leafRight | leafLast | shift | emit | term | drop => exact .inl (Nat.le_add_right _ _)

theorem CommandStep.cur_eq {s t : State} (h : CommandStep s t) (hrunning : s.running = true) (hidle : t.phase ≠ .idle) :
    t.cur = s.cur := by
  cases h with
  | reset => exact absurd rfl hidle
  | start hstopped => simp [hstopped] at hrunning
  | ignored | load | config | result => rfl

/-- Settles O43: no other outcome than the ALPHABET exit moves the cursor back; the exit sets it to TSO. -/
theorem cursorMovesBackOnlyAtTheExit : Obligations.CursorMovesBackOnlyAtTheExit := by
  intro s t hs h hrunning hidle hback
  rcases step_cases h with ⟨c, rest, -, hcommand⟩ | ⟨rest, -, hstep⟩ | ⟨-, hstep⟩
  · exact absurd (hcommand.cur_eq hrunning hidle) hback.ne
  · obtain hle | ⟨hp, rfl⟩ := hstep.cur_le (hs.of_host rest)
    · exact absurd hle hback.not_ge
    · exact ⟨hp, rfl, rfl⟩
  · obtain hle | ⟨hp, rfl⟩ := hstep.cur_le hs
    · exact absurd hle hback.not_ge
    · exact ⟨hp, rfl, rfl⟩

/-! ### Reset -/

/-- Settles O50: at reset no operation runs and nothing is recorded. -/
theorem resetMeetsTheInvariants : Obligations.ResetMeetsTheInvariants :=
  ⟨⟨rfl, fun _ _ => BitVec.getLsbD_zero⟩, .of_nothingRecorded ⟨rfl, rfl, rfl⟩ Phase.noConfusion, .of_not_running rfl,
    .of_not_running .nil rfl⟩

/-! ### The finished table (43 R168; 44 R195) -/

section
variable {s : State} (hs : TablesInv s) (hp : s.phase = .pad ∨ s.phase = .decode)
include hs hp

/-- One key per leaf. -/
theorem TablesInv.length_codeKeys : (codeKeys s.ct).length = s.leaf := by
  obtain ⟨hle, hsymbols⟩ := hs.symbols (.inr hp)
  have hlen := congrArg List.length hsymbols
  rw [List.length_map, List.length_take, Nat.min_eq_left hle] at hlen
  rw [codeKeys, List.length_map, hlen]

theorem TablesInv.one_le_leaf : 1 ≤ s.leaf := by
  obtain ⟨⟨tree, htree⟩, -, -⟩ := hs.table hp
  rw [← hs.length_codeKeys hp, ← htree]
  exact List.length_pos_iff.mpr tree.paths_ne_nil

/-- A key is shorter than ASIZE, which is a byte. -/
theorem TablesInv.length_key_le {k : Bits} (hk : k ∈ codeKeys s.ct) : k.length ≤ 254 := by
  obtain ⟨hfull, hleaf, -⟩ := hs.table hp
  have hlt := hfull.length_lt k hk
  have hbyte : s.asize.toNat < 256 := s.asize.isLt
  rw [hs.length_codeKeys hp, hleaf] at hlt
  omega

end

/-- Settles O52: the counts from the symbols bound and the tree's bits, the code's laws from the tree's paths. -/
theorem finishedTableIsAFullCode : Obligations.FinishedTableIsAFullCode := by
  intro s hs hp
  obtain ⟨hfull, hleaf, hteo⟩ := hs.table hp
  obtain ⟨-, hsymbols⟩ := hs.symbols (.inr hp)
  have hlen : s.ct.length = s.leaf := by rw [← hs.length_codeKeys hp, codeKeys, List.length_map]
  exact ⟨hlen, hleaf, hsymbols, hs.one_le_leaf hp, by omega,
    fun k hk k' hk' hne => not_prefix_of_pairwise hfull.prefixFree hk hk' hne, hfull.complete⟩

/-- Settles O53: the candidate begins a key and is none, so it is shorter; a key is not empty, and shorter than ASIZE. -/
theorem candidateIsShort : Obligations.CandidateIsShort := by
  intro s hs hp
  obtain ⟨hempty, hbegins, k, hk, hcand⟩ := hs.cand hp
  have hkeys : ∀ k ∈ codeKeys s.ct, 1 ≤ k.length ∧ k.length ≤ 254 := fun k hk =>
    ⟨List.length_pos_iff.mpr fun hnil => hempty (hnil ▸ hk), hs.length_key_le (.inr hp) hk⟩
  have hshort : s.cand.length < k.length := by
    refine lt_of_le_of_ne hcand.length_le fun heq => hbegins k hk ?_
    rw [hcand.eq_of_length heq]
  have ⟨_, hkey⟩ := hkeys k hk
  exact ⟨by omega, hkeys, k, hk, hshort⟩

end Sys2Proof.Machine

/-!
Whole operations (45 R222; 41 R146): the bound on an operation's steps, and containers of no symbol.
-/
namespace Sys2Proof.Machine

theorem phase_of_shows {u : State} {r : DecodeResult} (h : shows u r) : u.phase = .done ∨ u.phase = .error := by
  cases r with
  | ok out stopped => exact .inl h.1
  | error kind => exact .inr h.1

/-- Settles O55: the operation ends as `Decode` says, within the bound. -/
theorem everyOperationEnds : Obligations.EveryOperationEnds := by
  intro s t hhost hstopped hwf hstart
  rw [exec_start_of_not_running hstopped] at hstart
  cases hstart
  obtain ⟨n, u, hn, hrun, hshows⟩ :=
    endsWithin_decodeContainer (s := startOperation s) ⟨hhost, hwf, rfl, rfl⟩ rfl rfl rfl rfl
  exact ⟨n, u, hn, hrun, phase_of_shows hshows⟩

/-- Every tree has a leaf, so a count of 0 is never met (43 R164). -/
theorem reconstruct_of_asize_zero (bits : Bits) (tso : Nat) (sym : List Byte) :
    ∃ kind pos, reconstruct bits tso sym 0 = .error kind pos := by
  cases hwalk : walk bits sym (bits.length + 1) tso [] 0 [] with
  | error kind pos => exact ⟨kind, pos, reconstruct_of_error hwalk⟩
  | ok ct c k =>
    obtain ⟨w, xs, ⟨hcount, -⟩, -, -, -, hlen, hk, -⟩ := readsTree_of_walk hwalk
    exact ⟨.leafMismatch, c, reconstruct_of_count_bad hwalk (by omega)⟩

/-- Settles O57: the header byte is 0, so the checks fail or the reconstruction does. -/
theorem alphabetOfSizeZeroNeverDecodes : Obligations.AlphabetOfSizeZeroNeverDecodes := by
  intro bs cfg newline
  have hbyte : alphabetGroup (bytesBits (0 :: bs)) 0 = 0 := alphabetGroup_bytesBits (k := 0) rfl
  by_cases haccept : headerAccepts { alphabetEnd := .tso, newline := newline } 0 (bytesBits (0 :: bs)).length
  · obtain ⟨kind, pos, herror⟩ := reconstruct_of_asize_zero (bytesBits (0 :: bs)) (treeStart 0)
      (extractAlphabet (bytesBits (0 :: bs)) (alphabetEnd .tso 0 (bytesBits (0 :: bs)).length))
    refine ⟨kind, ?_⟩
    rw [decodeContainer_of_headerAccepts cfg rfl rfl hbyte haccept]
    exact congrArg (decodeMessage _ cfg newline) herror
  · exact ⟨.outOfRange, decodeContainer_of_not_headerAccepts cfg rfl rfl hbyte haccept⟩

end Sys2Proof.Machine

/-!
The host's commands beside a running operation, RESULT, and STATUS (10 R33; 45 R217 to R219), and the worked example's words
(30 R108).
-/
namespace Sys2Proof.Machine

/-! ### Commands -/

/-- Settles O6: START builds its state from the fields that agree. -/
theorem startForgetsTheEarlierOperation : Obligations.StartForgetsTheEarlierOperation := by
  intro s s' hs hs' hbytes hcfg hparams hhost hreply
  rw [exec_start_of_not_running hs, exec_start_of_not_running hs', startOperation, startOperation, resetBlock,
    resetBlock, hbytes, hcfg, hparams, hhost, hreply]

theorem resultReply_of_done {s : State} (hp : s.phase = .done) : resultReply s = .message s.status s.out := by
  simp [resultReply, hp]

theorem resultReply_of_error {s : State} (hp : s.phase = .error) :
    resultReply s = .failure s.status s.err s.errPhase s.errPos := by
  simp [resultReply, hp]

theorem resultReply_of_else {s : State} (hdone : s.phase ≠ .done) (herror : s.phase ≠ .error) :
    resultReply s = .status s.status := by
  cases hp : s.phase with
  | done => exact absurd hp hdone
  | error => exact absurd hp herror
  | idle | header | alphabet | tree | pad | decode => simp [resultReply, hp]

/-- Settles O8: RESULT hands over its reply, by phase. -/
theorem resultHandsOverTheOutcome : Obligations.ResultHandsOverTheOutcome := by
  intro s
  refine ⟨fun hp => ?_, fun hp => ?_, fun hdone herror => ?_⟩
  · rw [exec_result, resultReply_of_done hp, setReply]
  · rw [exec_result, resultReply_of_error hp, setReply]
  · rw [exec_result, resultReply_of_else hdone herror, setReply]

/-- Settles O7: the rule of each command in a running state. -/
theorem commandsWhileRunning : Obligations.CommandsWhileRunning := by
  intro s h
  have hreply : resultReply s = .status s.status :=
    resultReply_of_else (phase_ne_of_running h rfl) (phase_ne_of_running h rfl)
  refine ⟨fun bs => exec_load_of_running bs h, fun v => exec_config_of_running v h, exec_start_of_running h, ?_,
    resetBlock s, exec_reset s, rfl, rfl, rfl⟩
  rw [exec_result, hreply, setReply]

/-! ### STATUS (10 R33) -/

/-- STATUS bit by bit. -/
theorem status_getLsbD (s : State) (i : Nat) :
    s.status.getLsbD i =
      if i < 3 then (phaseCode s.phase).getLsbD i
      else if i < 6 then (errCode s.err).getLsbD (i - 3)
      else if i = 6 then s.termStop
      else decide (i = 7) && s.running := by
  rw [State.status, BitVec.getLsbD_setWidth, BitVec.getLsbD_append, BitVec.getLsbD_append, BitVec.getLsbD_append,
    BitVec.getLsbD_ofBool, BitVec.getLsbD_ofBool]
  by_cases hphase : i < 3
  · simp [hphase]; omega
  · by_cases herr : i < 6
    · have h1 : i - 3 < 3 := by omega
      simp [hphase, herr, h1]; omega
    · obtain rfl | rfl | ⟨j, rfl⟩ : i = 6 ∨ i = 7 ∨ ∃ j, i = j + 8 := by
        by_cases hrest : 8 ≤ i
        · exact .inr (.inr ⟨i - 8, by omega⟩)
        · omega
      · rfl
      · rfl
      · simp

theorem running_eq_decide (s : State) :
    s.running =
      decide (s.phase = .header ∨ s.phase = .alphabet ∨ s.phase = .tree ∨ s.phase = .pad ∨ s.phase = .decode) := by
  rw [State.running]
  cases s.phase <;> rfl

/-- Settles O9: STATUS bit by bit, and the codes in the spec's order. -/
theorem statusFields : Obligations.StatusFields := by
  refine ⟨fun s => ⟨?phase, ?err, ?termStop, ?busy, fun i hi => ?rest⟩, rfl, rfl⟩
  case phase =>
    refine BitVec.eq_of_getLsbD_eq fun i hi => ?_
    rw [BitVec.getLsbD_extractLsb', decide_eq_true hi, Bool.true_and, Nat.zero_add, status_getLsbD, if_pos hi]
  case err =>
    refine BitVec.eq_of_getLsbD_eq fun i hi => ?_
    rw [BitVec.getLsbD_extractLsb', decide_eq_true hi, Bool.true_and, status_getLsbD, if_neg (by omega),
      if_pos (by omega), Nat.add_sub_cancel_left]
  case termStop => exact status_getLsbD s 6
  case busy => exact (status_getLsbD s 7).trans (running_eq_decide s)
  case rest =>
    rw [status_getLsbD, if_neg (by omega), if_neg (by omega), if_neg (by omega), decide_eq_false (by omega),
      Bool.false_and]

/-! ### The worked example -/

/-- Settles O60: the decoder on the example's words. -/
theorem workedExampleWordsDecode : Obligations.WorkedExampleWordsDecode := by
  refine ⟨?_, ?_, ?_, ?_, ?_⟩ <;> decide

end Sys2Proof.Machine
